-- ==== Sys2Proof/Config.lean ====
section
/-!
DEFINITION. What an implementation fixes: `MAXLEN`, the one parameter the spec leaves open (00_scope R6, 92_eei_decisions D8).
CORE has no undefined value, so there is no free value here (70_reset_and_hazards R275).
-/

namespace Sys2Proof

/-- The configuration of one CORE instance: `MAXLEN`, held as its distance above the least legal value, so that the type
has exactly the legal values `8 <= MAXLEN <= 255` (00_scope R6). No command changes it (70_reset_and_hazards R264). -/
structure Config where
  maxLenAbove8 : Fin 248
  deriving DecidableEq, Repr

namespace Config

/-- `MAXLEN`: the largest number of `DATA` bytes CORE accepts in one transaction (00_scope R6). -/
def maxLen (c : Config) : Nat := 8 + c.maxLenAbove8.val

end Config

end Sys2Proof
end

