-- ==== Sys2Proof/Word.lean ====
section
/-!
DEFINITION. The bit-vector types of CORE: what the spec treats as bits (00_scope R5, R7; 40_reference_functions R120).
-/

namespace Sys2Proof

/-- A command word `cw`, `CW_W = 32` bits (00_scope R7). The trailing-field register has the same width, `TRAIL_W = 32`. -/
abbrev Word := BitVec 32

/-- A byte: `idh`, `idl`, `len`, a payload byte, the narrow sum; `BYTE_W = NARROW_W = 8` (00_scope R5). -/
abbrev Byte := BitVec 8

/-- A message identifier, `ID_W = 16` bits, unsigned (00_scope R5). -/
abbrev Ident := BitVec 16

/-- The wide result, `WIDE_W = 64` bits, unsigned (00_scope R5; 90_conflicts C1). -/
abbrev Wide := BitVec 64

end Sys2Proof
end

