-- ==== Sys2Proof/Machine/State.lean ====
section
/-!
DEFINITION. The state of the machine: CORE's eleven registers (10_state R20), and beside them the two parameters of the
step function that the spec keeps out of CORE's state (10_state R42), which `step : State → Outcome` has no other place
for: the configuration, and what the host presents at the coming clock edges.
-/

namespace Sys2Proof.Machine

/-- `PHASE`: where CORE is in a transaction (10_state R24). -/
inductive Phase where
  | idle
  | active
  | done
  | fault
  deriving DecidableEq, Repr

/-- `ERR`: the code of the first fault since reset or `CLR`; the list is closed, codes 5 to 7 are never written
(10_state R25, 60_exceptions R225, 93_implementation_defined U9). -/
inductive ErrCode where
  | none
  | short
  | long
  | seq
  | illegal
  deriving DecidableEq, Repr

/-- `VAR`: the variant of the current or last transaction (10_state R26). -/
inductive Variant where
  | narrow
  | wide
  deriving DecidableEq, Repr

/-- `LAYER`: the layer of the current or last transaction (10_state R27). -/
inductive Layer where
  | raw
  | frame
  deriving DecidableEq, Repr

/-- CORE's whole state: eleven registers, 143 bits (10_state R20). -/
structure Regs where
  /-- `PHASE`, 2 bits (R24). -/
  phase : Phase
  /-- `ERR`, 3 bits (R25). -/
  err : ErrCode
  /-- `VAR`, 1 bit (R26). -/
  var : Variant
  /-- `LAYER`, 1 bit (R27). -/
  layer : Layer
  /-- `IDH`, the high header byte (R28). -/
  idh : Byte
  /-- `IDL`, the low header byte (R28). -/
  idl : Byte
  /-- `LEN`, the length byte that enters the sum (R29). -/
  len : Byte
  /-- `CNT`, the `DATA` bytes accepted since the last start command (R30). -/
  cnt : Byte
  /-- `ACC8`, the narrow accumulator (R32). -/
  acc8 : Byte
  /-- `ACCW`, the wide accumulator (R33). -/
  accw : Wide
  /-- `TRAIL`, the trimmer's delay line and, after `END`, the trailing field (R31). -/
  trail : Word
  deriving DecidableEq, Repr

/-- The value of every register after reset and after `CLR`: zero (10_state R39). -/
def Regs.zero : Regs :=
  { phase := .idle, err := .none, var := .narrow, layer := .raw, idh := 0, idl := 0, len := 0, cnt := 0,
    acc8 := 0, accw := 0, trail := 0 }

/-- What the host drives on CORE's input ports at one rising edge of `clk` (20_memory R61). -/
structure PortIn where
  /-- `rst`, synchronous reset, active high. -/
  rst : Bool
  /-- `cmd_valid`: `cmd` holds a command word to execute in this step. -/
  cmdValid : Bool
  /-- `cmd`, the command word. -/
  cmd : Word
  deriving DecidableEq, Repr

/-- The machine: CORE's registers, its configuration, and what the host presents at the coming edges, the next edge
first (10_state R20, R42). -/
structure State where
  regs : Regs
  cfg : Config
  inputs : List PortIn
  deriving DecidableEq, Repr

/-- The machine right after reset: every register zero (10_state R39, 70_reset_and_hazards R260). The host has presented
nothing yet, and `MAXLEN` is 8 (DESIGN CHOICE, log entries 1 and 2: neither is CORE's state, and no statement rests on
either value). -/
def State.reset : State := { regs := Regs.zero, cfg := { maxLenAbove8 := 0 }, inputs := [] }

/-- The reasons the machine stops: none. A fault of the spec is the phase `FAULT`, a state CORE goes on from
(60_exceptions R226), and the step function is total: "no state is stuck, and no step is refused"
(43_control_commands R193). -/
inductive Fault where
  deriving DecidableEq, Repr

/-- The reasons a command has no meaning in the model. -/
inductive Refusal where
  /-- The command has no meaning yet: raised by an arm of `exec` only, safe. No arm raises it: all seven are modelled. -/
  | notModelled (mnemonic : String)
  deriving DecidableEq, Repr

end Sys2Proof.Machine
end

