-- ==== Sys2Proof/Machine/Flags.lean ====
section
/-!
DEFINITION. The status bits. CORE has no arithmetic flag (60_exceptions R220): its only flags are `PHASE` and `ERR`, and
`STATUS` is a read-only view of the small registers (10_state R34).
-/

namespace Sys2Proof.Machine

/-- The number of a phase (10_state R24). -/
def Phase.code : Phase → Nat
  | .idle => 0
  | .active => 1
  | .done => 2
  | .fault => 3

/-- The number of a fault code (60_exceptions R225). -/
def ErrCode.code : ErrCode → Nat
  | .none => 0
  | .short => 1
  | .long => 2
  | .seq => 3
  | .illegal => 4

/-- The variant bit (10_state R26). -/
def Variant.code : Variant → Nat
  | .narrow => 0
  | .wide => 1

/-- The layer bit (10_state R27). -/
def Layer.code : Layer → Nat
  | .raw => 0
  | .frame => 1

/-- `STATUS = CNT ∥ 0 ∥ LAYER ∥ VAR ∥ ERR ∥ PHASE` (10_state R34). -/
def status (r : Regs) : BitVec 16 :=
  BitVec.ofNat 16 (r.cnt.toNat * 2 ^ 8 + r.layer.code * 2 ^ 6 + r.var.code * 2 ^ 5 + r.err.code * 2 ^ 2 + r.phase.code)

/-- The phases that accept a start command (41_start_commands R154). -/
def acceptsStart : Phase → Bool
  | .idle | .done => true
  | .active | .fault => false

/-- The phase that accepts `DATA` and `END` (42_data_end_commands R170, R171). -/
def acceptsTransfer : Phase → Bool
  | .active => true
  | .idle | .done | .fault => false

end Sys2Proof.Machine
end

