-- ==== Sys2Proof/Machine/Operands.lean ====
section
/-!
DEFINITION. The operand forms: widening a byte, the header decomposer's split, the trim count, and the trimmer's delay line.
-/

namespace Sys2Proof.Machine

/-- `zext_64` of a byte (00_scope R8, 30_encoding R100). -/
def zext64 (b : Byte) : Wide := BitVec.ofNat 64 b.toNat

/-- `idh = address[15:8]` (40_reference_functions R122). -/
def splitHigh (address : Ident) : Byte := BitVec.ofNat 8 (address.toNat / 256)

/-- `idl = address[7:0]` (40_reference_functions R122). -/
def splitLow (address : Ident) : Byte := BitVec.ofNat 8 (address.toNat % 256)

/-- The trim count `T`: 1 for Narrow, 4 for Wide (10_state R26, 40_reference_functions R120). -/
def Variant.trimCount : Variant → Nat
  | .narrow => 1
  | .wide => 4

/-- The oldest byte the delay line can hold, `TRAIL[8·T − 1 : 8·T − 8]` (42_data_end_commands R170). -/
def oldestByte (v : Variant) (trail : Word) : Byte :=
  BitVec.ofNat 8 (trail.toNat / 2 ^ (8 * v.trimCount - 8) % 256)

/-- Shifting a byte into the delay line, `((TRAIL · 256) + b) mod 2^(8·T)` (42_data_end_commands R170). -/
def shiftIn (v : Variant) (trail : Word) (b : Byte) : Word :=
  BitVec.ofNat 32 ((trail.toNat * 256 + b.toNat) % 2 ^ (8 * v.trimCount))

/-- The byte a `DATA b` adds to the accumulator: `b` itself in the raw layer; in the frame layer the oldest byte of the
delay line once the line is full, and nothing before that (42_data_end_commands R170). -/
def summedByte (r : Regs) (b : Byte) : Option Byte :=
  match r.layer with
  | .raw => some b
  | .frame => if r.var.trimCount ≤ r.cnt.toNat then some (oldestByte r.var r.trail) else none

/-- `TRAIL` after a `DATA b`: unchanged in the raw layer, shifted in the frame layer (42_data_end_commands R170). -/
def nextTrail (r : Regs) (b : Byte) : Word :=
  match r.layer with
  | .raw => r.trail
  | .frame => shiftIn r.var r.trail b

end Sys2Proof.Machine
end

