-- ==== Sys2Proof/Machine/Ops.lean ====
section
/-!
DEFINITION. The named operations over the registers: fault entry and the way out of it, the phase check every command
makes, the two adders, opening a transaction, taking a byte, and closing.
-/

namespace Sys2Proof.Machine

/-- The state with other registers; the configuration and the host's list are no command's to change (10_state R42). -/
def State.withRegs (s : State) (r : Regs) : State := { s with regs := r }

/-- Fault entry: exactly `PHASE <- FAULT` and `ERR <- code` (60_exceptions R226). -/
def State.raise (code : ErrCode) (s : State) : State :=
  s.withRegs { s.regs with phase := .fault, err := code }

/-- The way out of a fault, and of anything else: every register to its reset value (10_state R39, 60_exceptions R228,
43_control_commands R190). -/
def State.clear (s : State) : State := s.withRegs Regs.zero

/-- The checks every command but `CLR` begins with, in the order of 60_exceptions R230: in `FAULT` it is ignored (R227);
in a phase that does not accept it, it raises `SEQ` (R223); else its own rule runs. -/
def State.whenAccepted (accepts : Phase → Bool) (rule : State → State) (s : State) : State :=
  if s.regs.phase = .fault then s
  else if accepts s.regs.phase then rule s
  else s.raise .seq

/-- A word that decodes to `ILLEGAL`: ignored in `FAULT` (60_exceptions R227), else the fault `ILLEGAL` (R224). -/
def State.illegalWord (s : State) : State :=
  if s.regs.phase = .fault then s else s.raise .illegal

/-- Adding a byte to the selected accumulator: modulo 256 into `ACC8`, widened and modulo 2^64 into `ACCW`
(10_state R32, R33; 42_data_end_commands R170). -/
def Regs.addByte (r : Regs) (x : Byte) : Regs :=
  match r.var with
  | .narrow => { r with acc8 := r.acc8 + x }
  | .wide => { r with accw := r.accw + zext64 x }

/-- Adding the bytes of a list in turn. -/
def Regs.addBytes (r : Regs) (xs : List Byte) : Regs := xs.foldl Regs.addByte r

/-- Opening a transaction: variant, layer and header are set, the count, the delay line and both accumulators are zeroed,
and the header terms are summed into the selected accumulator (41_start_commands R150 to R153). `ERR` is unchanged. -/
def State.openWith (v : Variant) (l : Layer) (idh idl len : Byte) (terms : List Byte) (s : State) : State :=
  s.withRegs (Regs.addBytes
    { phase := .active, err := s.regs.err, var := v, layer := l, idh := idh, idl := idl, len := len, cnt := 0,
      acc8 := 0, accw := 0, trail := 0 } terms)

/-- Opening a raw transaction: the host gives the length byte (41_start_commands R150, R151). -/
def State.openRaw (v : Variant) (idh idl len : Byte) (s : State) : State :=
  s.openWith v .raw idh idl len [idh, idl, len]

/-- Opening a frame transaction: the identifier is split and `LEN` is 0 until `END` (41_start_commands R152, R153). -/
def State.openFrame (v : Variant) (address : Ident) (s : State) : State :=
  s.openWith v .frame (splitHigh address) (splitLow address) 0 [splitHigh address, splitLow address]

/-- The registers after an accepted `DATA b` (42_data_end_commands R170). -/
def Regs.takeByte (r : Regs) (b : Byte) : Regs :=
  let summed := match summedByte r b with
    | some x => r.addByte x
    | none => r
  { summed with trail := nextTrail r b, cnt := r.cnt + 1 }

/-- `DATA b` in `ACTIVE`: `LONG` when `MAXLEN` bytes have been accepted, else the byte is taken
(42_data_end_commands R170, 60_exceptions R222). -/
def State.dataRule (b : Byte) (s : State) : State :=
  if s.regs.cnt.toNat = s.cfg.maxLen then s.raise .long else s.withRegs (s.regs.takeByte b)

/-- The registers after `END` has closed a frame: `LEN` and the sum receive the count (42_data_end_commands R171). -/
def Regs.closeFrame (r : Regs) : Regs :=
  { r.addByte r.cnt with len := r.cnt, phase := .done }

/-- `END` in `ACTIVE`: the raw layer changes `PHASE` only; the frame layer raises `SHORT` below the trim count and else
closes the frame (42_data_end_commands R171, 60_exceptions R221). -/
def State.endRule (s : State) : State :=
  match s.regs.layer with
  | .raw => s.withRegs { s.regs with phase := .done }
  | .frame =>
    if s.regs.cnt.toNat < s.regs.var.trimCount then s.raise .short else s.withRegs s.regs.closeFrame

end Sys2Proof.Machine
end

