-- ==== Sys2Proof/Machine/Control.lean ====
section
/-!
DEFINITION. The meaning of `CLR` (43_control_commands R190). CORE has no other control command (R191, R192).
-/

namespace Sys2Proof.Machine

/-- `CLR` (R190): accepted in every phase, `FAULT` included; it never faults. -/
def execClr (s : State) : Host.Outcome State Fault Refusal :=
  .next s.clear

end Sys2Proof.Machine
end

