-- ==== Sys2Proof/Machine/Start.lean ====
section
/-!
DEFINITION. The meanings of the four start commands (41_start_commands R150 to R154).
-/

namespace Sys2Proof.Machine

/-- `STARTR.N idh, idl, len` (R150). -/
def execStartRN (idh idl len : Byte) (s : State) : Host.Outcome State Fault Refusal :=
  .next (s.whenAccepted acceptsStart (State.openRaw .narrow idh idl len))

/-- `STARTR.W idh, idl, len` (R151). -/
def execStartRW (idh idl len : Byte) (s : State) : Host.Outcome State Fault Refusal :=
  .next (s.whenAccepted acceptsStart (State.openRaw .wide idh idl len))

/-- `STARTF.N address` (R152). -/
def execStartFN (address : Ident) (s : State) : Host.Outcome State Fault Refusal :=
  .next (s.whenAccepted acceptsStart (State.openFrame .narrow address))

/-- `STARTF.W address` (R153). -/
def execStartFW (address : Ident) (s : State) : Host.Outcome State Fault Refusal :=
  .next (s.whenAccepted acceptsStart (State.openFrame .wide address))

end Sys2Proof.Machine
end

