-- ==== Sys2Proof/Machine/Transfer.lean ====
section
/-!
DEFINITION. The meanings of `DATA` and `END` (42_data_end_commands R170, R171).
-/

namespace Sys2Proof.Machine

/-- `DATA b` (R170). -/
def execData (b : Byte) (s : State) : Host.Outcome State Fault Refusal :=
  .next (s.whenAccepted acceptsTransfer (State.dataRule b))

/-- `END` (R171). -/
def execEnd (s : State) : Host.Outcome State Fault Refusal :=
  .next (s.whenAccepted acceptsTransfer State.endRule)

end Sys2Proof.Machine
end

