-- ==== Sys2Proof/Syntax.lean ====
section
/-!
DEFINITION. The seven commands of CCA-1, one constructor per row of spec/opcode_table.json (30_encoding R97).
-/

namespace Sys2Proof

/-- A decoded command. The operand types carry the operand ranges of 30_encoding R100, so every term is well formed. -/
inductive Instr where
  /-- `STARTR.N idh, idl, len` (41_start_commands R150). -/
  | startRN (idh idl len : Byte)
  /-- `STARTR.W idh, idl, len` (41_start_commands R151). -/
  | startRW (idh idl len : Byte)
  /-- `STARTF.N address` (41_start_commands R152). -/
  | startFN (address : Ident)
  /-- `STARTF.W address` (41_start_commands R153). -/
  | startFW (address : Ident)
  /-- `DATA b` (42_data_end_commands R170). -/
  | data (b : Byte)
  /-- `END` (42_data_end_commands R171). -/
  | end_
  /-- `CLR` (43_control_commands R190). -/
  | clr
  deriving DecidableEq, Repr

end Sys2Proof
end

