-- ==== Sys2Proof/Machine/Dispatch.lean ====
section
/-!
DEFINITION. One arm per command: the call of its meaning.
-/

namespace Sys2Proof.Machine

def exec (i : Instr) (s : State) : Host.Outcome State Fault Refusal :=
  match i with
  | .startRN idh idl len => Sys2Proof.Machine.execStartRN idh idl len s
  | .startRW idh idl len => Sys2Proof.Machine.execStartRW idh idl len s
  | .startFN address => Sys2Proof.Machine.execStartFN address s
  | .startFW address => Sys2Proof.Machine.execStartFW address s
  | .data b => Sys2Proof.Machine.execData b s
  | .end_ => Sys2Proof.Machine.execEnd s
  | .clr => Sys2Proof.Machine.execClr s

end Sys2Proof.Machine
end

