-- ==== Sys2Proof/Decode.lean ====
section
/-!
DEFINITION. The decoder, total on 32-bit words and rejecting by name, and after it the encoder (30_encoding R90 to R98,
R102). CORE is given a command word whole, as a number (20_memory R68), so there is no byte order and no length rule.
-/

namespace Sys2Proof

/-- Why a word is illegal: the five cases of 30_encoding R98. -/
inductive IllegalForm where
  /-- (a) `op` is 0 or 6 to 15. -/
  | opcode
  /-- (b) `op` is 1 or 2 and one of bits 27:25 is 1. -/
  | startBits
  /-- (c) `op` is 2 and one of bits 23:16 is 1. -/
  | frameBits
  /-- (d) `op` is 3 and one of bits 27:8 is 1. -/
  | dataBits
  /-- (e) `op` is 4 or 5 and one of bits 27:0 is 1. -/
  | zeroBits
  deriving DecidableEq, Repr

/-- What a word decodes to: one of the seven commands, or `ILLEGAL` (30_encoding R96). -/
inductive Decoded where
  | instr (i : Instr)
  | illegal (why : IllegalForm)
  deriving DecidableEq, Repr

/-- `w[hi:lo]` as an unsigned number (00_scope R8). -/
def bits (w : Word) (hi lo : Nat) : Nat := w.toNat / 2 ^ lo % 2 ^ (hi - lo + 1)

/-- A byte operand at bits `lo + 7 : lo`, taken as it stands (30_encoding R100). -/
def byteAt (w : Word) (lo : Nat) : Byte := BitVec.ofNat 8 (bits w (lo + 7) lo)

/-- The identifier operand, bits 15:0 (30_encoding R94). -/
def identAt (w : Word) : Ident := BitVec.ofNat 16 (bits w 15 0)

/-- Format `SR`, op 1: `V` in bit 24, then three bytes (30_encoding R92, R93). -/
def decodeStartRaw (w : Word) : Decoded :=
  if bits w 27 25 = 0 then
    if bits w 24 24 = 0 then .instr (.startRN (byteAt w 16) (byteAt w 8) (byteAt w 0))
    else .instr (.startRW (byteAt w 16) (byteAt w 8) (byteAt w 0))
  else .illegal .startBits

/-- Format `SF`, op 2: `V` in bit 24, the identifier in bits 15:0 (30_encoding R93, R94). -/
def decodeStartFrame (w : Word) : Decoded :=
  if bits w 27 25 = 0 then
    if bits w 23 16 = 0 then
      if bits w 24 24 = 0 then .instr (.startFN (identAt w)) else .instr (.startFW (identAt w))
    else .illegal .frameBits
  else .illegal .startBits

/-- Format `D`, op 3 (30_encoding R95). -/
def decodeData (w : Word) : Decoded :=
  if bits w 27 8 = 0 then .instr (.data (byteAt w 0)) else .illegal .dataBits

/-- Format `Z`, op 4 and 5: all of bits 27:0 are reserved (30_encoding R95). -/
def decodeZero (i : Instr) (w : Word) : Decoded :=
  if bits w 27 0 = 0 then .instr i else .illegal .zeroBits

/-- The decoder of 30_encoding R96. It looks at the word alone, never at the state (R90). -/
def decode (w : Word) : Decoded :=
  if bits w 31 28 = 1 then decodeStartRaw w
  else if bits w 31 28 = 2 then decodeStartFrame w
  else if bits w 31 28 = 3 then decodeData w
  else if bits w 31 28 = 4 then decodeZero .end_ w
  else if bits w 31 28 = 5 then decodeZero .clr w
  else .illegal .opcode

/-- The command a word stands for, `none` where the word is illegal. -/
def decodeInstr (w : Word) : Option Instr :=
  match decode w with
  | .instr i => some i
  | .illegal _ => none

/-- The word of a command (30_encoding R102, column "word"). -/
def encode : Instr → Word
  | .startRN idh idl len =>
    BitVec.ofNat 32 (0x10000000 + idh.toNat * 2 ^ 16 + idl.toNat * 2 ^ 8 + len.toNat)
  | .startRW idh idl len =>
    BitVec.ofNat 32 (0x11000000 + idh.toNat * 2 ^ 16 + idl.toNat * 2 ^ 8 + len.toNat)
  | .startFN address => BitVec.ofNat 32 (0x20000000 + address.toNat)
  | .startFW address => BitVec.ofNat 32 (0x21000000 + address.toNat)
  | .data b => BitVec.ofNat 32 (0x30000000 + b.toNat)
  | .end_ => 0x40000000
  | .clr => 0x50000000

/-- The word the opcode table numbers `w`, of which the table gives `nbits` bits: a command is one 32-bit word presented
whole, so the bits above `nbits` are 0 and a row of more than 32 bits is no command of CCA-1 (30_encoding R90). -/
def tableWord (nbits w : Nat) : Option Word :=
  if nbits ≤ 32 then some (BitVec.ofNat 32 (w % 2 ^ nbits)) else none

/-- The command the decoder reads from a word numbered as spec/opcode_table.json numbers it. -/
def decodeTableWord (nbits w : Nat) : Option Instr :=
  match tableWord nbits w with
  | some cw => decodeInstr cw
  | none => none

end Sys2Proof
end

