-- ==== Sys2Proof/Machine/Ports.lean ====
section
/-!
DEFINITION. CORE's ports: what one clock edge asks of CORE, taking the next edge from the host's list, presenting words,
and the output ports (10_state R35; 20_memory R61 to R63; 70_reset_and_hazards R265).
-/

namespace Sys2Proof.Machine

/-- What one rising edge of `clk` asks of CORE (20_memory R62). -/
inductive Edge where
  /-- `rst = 1`. -/
  | reset
  /-- `rst = 0`, `cmd_valid = 1`: execute the word on `cmd`. -/
  | command (cw : Word)
  /-- `rst = 0`, `cmd_valid = 0`: no command, the state is unchanged. -/
  | quiet
  deriving DecidableEq, Repr

/-- `rst` overrides the command whatever it is, and without `cmd_valid` there is no command (20_memory R62,
60_exceptions R236). -/
def PortIn.edge (p : PortIn) : Edge :=
  if p.rst then .reset else if p.cmdValid then .command p.cmd else .quiet

/-- The state with another list of what the host presents at the coming edges. -/
def State.withInputs (s : State) (ins : List PortIn) : State := { s with inputs := ins }

/-- The next edge and the state with that edge taken from the host's list. A host that presents nothing more drives
`cmd_valid = 0` (DEDUCED from 20_memory R62, R70; log entry 1). -/
def State.nextEdge (s : State) : Edge × State :=
  match s.inputs with
  | [] => (.quiet, s)
  | p :: rest => (p.edge, s.withInputs rest)

/-- The ports of a step in which the host presents a command word (20_memory R62). -/
def PortIn.ofWord (cw : Word) : PortIn := { rst := false, cmdValid := true, cmd := cw }

/-- The ports of a step in which the host asserts `rst`, whatever `cmd_valid` and `cmd` are (20_memory R62). -/
def PortIn.ofReset (valid : Bool) (cw : Word) : PortIn := { rst := true, cmdValid := valid, cmd := cw }

/-- The state before which the host lays the list of words to present, one per step (44_transactions R210). -/
def State.presenting (s : State) (ws : List Word) : State := s.withInputs (ws.map PortIn.ofWord)

/-- The state in which the host presents one word more, before everything else. -/
def State.presentFirst (s : State) (cw : Word) : State :=
  s.withInputs (PortIn.ofWord cw :: s.inputs)

/-- CORE's output ports (20_memory R61). -/
structure Outputs where
  cmdReady : Bool
  done : Bool
  fault : Bool
  status : BitVec 16
  res8 : Byte
  resw : Wide
  trail : Word
  idh : Byte
  idl : Byte
  len : Byte
  deriving DecidableEq, Repr

/-- The output ports as functions of the registers and nothing else (10_state R35); reading them changes nothing
(20_memory R63); `cmd_ready` is constantly 1 (R61). -/
def Regs.outputs (r : Regs) : Outputs :=
  { cmdReady := true
    done := r.phase = .done
    fault := r.phase = .fault
    status := status r
    res8 := r.acc8
    resw := r.accw
    trail := r.trail
    idh := r.idh
    idl := r.idl
    len := r.len }

/-- What the host learns when it follows the protocol of 70_reset_and_hazards R265. -/
inductive Reading where
  /-- Neither `done` nor `fault`: the result ports are no result (R266). -/
  | unfinished
  /-- `fault = 1`: the code in `status[4:2]`. -/
  | failed (code : Nat)
  /-- `done = 1`, narrow variant: `res8`. -/
  | narrow (sum : Byte)
  /-- `done = 1`, wide variant: `resw`. -/
  | wide (sum : Wide)
  deriving DecidableEq, Repr

/-- The host's reading of the outputs (70_reset_and_hazards R265, R266); the variant is `status[5]` (10_state R34). -/
def Outputs.read (o : Outputs) : Reading :=
  if o.done then
    if o.status.toNat / 2 ^ 5 % 2 = 0 then .narrow o.res8 else .wide o.resw
  else if o.fault then .failed (o.status.toNat / 2 ^ 2 % 8)
  else .unfinished

/-- The host's own comparison for a received narrow frame, `res8` with `trail[7:0]`; CORE has no comparator
(70_reset_and_hazards R265). -/
def Outputs.narrowFrameMatches (o : Outputs) : Bool := o.res8 = BitVec.ofNat 8 (o.trail.toNat % 256)

end Sys2Proof.Machine
end

