-- ==== Sys2Proof/Machine/Step.lean ====
section
/-!
DEFINITION. One step: the next clock edge of the host's list (20_memory R62).
-/

namespace Sys2Proof.Machine

/-- One rising edge of `clk` (20_memory R62): reset, or the word on `cmd` decoded and executed, or nothing. -/
def step (s : State) : Host.Outcome State Fault Refusal :=
  match s.nextEdge with
  | (.reset, t) => .next t.clear
  | (.quiet, t) => .next t
  | (.command cw, t) =>
    match decode cw with
    | .instr i => exec i t
    | .illegal _ => .next t.illegalWord

/-- The state in which the very next step is presented the word the opcode table numbers `w` (CORE fetches nothing: the
command executed in a step is the word on `cmd` in that step, 20_memory R74; log entry 1). -/
def State.withFetchWord (s : State) (nbits w : Nat) : State :=
  match tableWord nbits w with
  | some cw => s.presentFirst cw
  | none => s

end Sys2Proof.Machine
end

