-- ==== Sys2Proof/Machine/Hex.lean ====
section
/-!
DEFINITION. Hex strings (30_encoding R104), used by the assembler only and never by the hardware. A string is a list of
characters.
-/

namespace Sys2Proof.Machine

/-- The value of one hex digit, `h` of 30_encoding R104; `none` for any other character. -/
def hexDigit (c : Char) : Option Nat :=
  let n := c.toNat
  if 48 ≤ n ∧ n ≤ 57 then some (n - 48)
  else if 97 ≤ n ∧ n ≤ 102 then some (n - 87)
  else if 65 ≤ n ∧ n ≤ 70 then some (n - 55)
  else none

/-- Decoding: two digits a byte, most significant nibble first; `none` is the decode error for an odd length or a
character that is no hex digit (30_encoding R104). -/
def hexDecode : List Char → Option (List Byte)
  | [] => some []
  | [_] => none
  | hi :: lo :: rest =>
    match hexDigit hi, hexDigit lo, hexDecode rest with
    | some h, some l, some bs => some (BitVec.ofNat 8 (16 * h + l) :: bs)
    | _, _, _ => none

/-- The lower-case digit of a nibble. -/
def nibbleChar (n : Nat) : Char :=
  if n < 10 then Char.ofNat (48 + n) else Char.ofNat (87 + n)

/-- Encoding a byte sequence, most significant nibble first (30_encoding R104). -/
def hexEncode : List Byte → List Char
  | [] => []
  | b :: bs => nibbleChar (b.toNat / 16) :: nibbleChar (b.toNat % 16) :: hexEncode bs

end Sys2Proof.Machine
end

