-- ==== Sys2Proof/WellFormed.lean ====
section
/-!
DEFINITION. Well-formedness. A term of `Instr` is well formed by its types; what can be ill formed is an assembler line,
whose operands are plain numbers and hex strings: an operand out of range is an error, not a truncation
(30_encoding R102, R104).
-/

namespace Sys2Proof

/-- One assembler line: a command, a raw word, or a pseudo-instruction (30_encoding R102, R103). -/
inductive Source where
  | startRN (idh idl len : Nat)
  | startRW (idh idl len : Nat)
  | startFN (address : Nat)
  | startFW (address : Nat)
  | data (b : Nat)
  | end_
  | clr
  | rawWord (w : Nat)
  | frameN (address : Nat) (hex : List Char)
  | frameW (address : Nat) (hex : List Char)
  | rawN (idh idl len : Nat) (hex : List Char)
  | rawW (idh idl len : Nat) (hex : List Char)
  | bytes (hex : List Char)
  deriving DecidableEq, Repr

/-- The numeric operands are in the ranges of 30_encoding R102. -/
def Source.inRange : Source → Bool
  | .startRN idh idl len | .startRW idh idl len | .rawN idh idl len _ | .rawW idh idl len _ =>
    idh < 256 && idl < 256 && len < 256
  | .startFN address | .startFW address | .frameN address _ | .frameW address _ => address < 65536
  | .data b => b < 256
  | .rawWord w => w < 4294967296
  | .end_ | .clr | .bytes _ => true

/-- The hex operand decodes (30_encoding R104). -/
def Source.hexOk : Source → Bool
  | .frameN _ hex | .frameW _ hex | .rawN _ _ _ hex | .rawW _ _ _ hex | .bytes hex =>
    (Machine.hexDecode hex).isSome
  | .startRN .. | .startRW .. | .startFN .. | .startFW .. | .data .. | .end_ | .clr | .rawWord .. => true

/-- A well-formed line: every operand in range and every hex string decodable. -/
def Source.wellFormed (l : Source) : Bool := l.inRange && l.hexOk

end Sys2Proof
end

