-- ==== Sys2Proof/Machine/Assembler.lean ====
section
/-!
DEFINITION. The assembler: whole transactions as words, pseudo-instructions, and the text of a line (30_encoding R102 to
R104). It is a convention for writing command lists and no part of the hardware (00_scope R4 item 2).
-/

namespace Sys2Proof.Machine

/-- The words of `DATA b0; ...; DATA b(n−1)` (30_encoding R103). -/
def dataWords (d : List Byte) : List Word := d.map fun b => encode (.data b)

/-- The words of a transaction: the start command, one `DATA` a byte, `END` (30_encoding R103, 44_transactions R211). -/
def transaction (start : Instr) (d : List Byte) : List Word := encode start :: (dataWords d ++ [encode .end_])

/-- The words of a line whose operands are in range and whose hex string is `d` (30_encoding R102, R103). -/
def sourceWords (d : List Byte) : Source → List Word
  | .startRN idh idl len => [encode (.startRN (BitVec.ofNat 8 idh) (BitVec.ofNat 8 idl) (BitVec.ofNat 8 len))]
  | .startRW idh idl len => [encode (.startRW (BitVec.ofNat 8 idh) (BitVec.ofNat 8 idl) (BitVec.ofNat 8 len))]
  | .startFN address => [encode (.startFN (BitVec.ofNat 16 address))]
  | .startFW address => [encode (.startFW (BitVec.ofNat 16 address))]
  | .data b => [encode (.data (BitVec.ofNat 8 b))]
  | .end_ => [encode .end_]
  | .clr => [encode .clr]
  | .rawWord w => [BitVec.ofNat 32 w]
  | .frameN address _ => transaction (.startFN (BitVec.ofNat 16 address)) d
  | .frameW address _ => transaction (.startFW (BitVec.ofNat 16 address)) d
  | .rawN idh idl len _ =>
    transaction (.startRN (BitVec.ofNat 8 idh) (BitVec.ofNat 8 idl) (BitVec.ofNat 8 len)) d
  | .rawW idh idl len _ =>
    transaction (.startRW (BitVec.ofNat 8 idh) (BitVec.ofNat 8 idl) (BitVec.ofNat 8 len)) d
  | .bytes _ => dataWords d

/-- The hex string of a line, empty where the line has none. -/
def sourceHex : Source → List Char
  | .frameN _ hex | .frameW _ hex | .rawN _ _ _ hex | .rawW _ _ _ hex | .bytes hex => hex
  | .startRN .. | .startRW .. | .startFN .. | .startFW .. | .data .. | .end_ | .clr | .rawWord .. => []

/-- Why the assembler emits no word for a line (30_encoding R102, R104; 60_exceptions R232). -/
inductive AsmError where
  /-- No such mnemonic. -/
  | mnemonic
  /-- A wrong number of operands, or an operand that is no number or no quoted string. -/
  | operands
  /-- An operand out of range: an error, not a truncation. -/
  | range
  /-- A hex string of odd length or with a character that is no hex digit. -/
  | hex
  deriving DecidableEq, Repr

/-- Assembling a line: its words, or the error, and then no word is emitted (30_encoding R102 to R104). -/
def assemble (l : Source) : Except AsmError (List Word) :=
  if l.inRange then
    match hexDecode (sourceHex l) with
    | some d => .ok (sourceWords d l)
    | none => .error .hex
  else .error .range

/-- The characters before a comment: `;` starts one (30_encoding R102). -/
def dropComment (cs : List Char) : List Char := cs.takeWhile (· ≠ ';')

/-- Without the white space at both ends. -/
def trimBlank (cs : List Char) : List Char :=
  ((cs.dropWhile Char.isWhitespace).reverse.dropWhile Char.isWhitespace).reverse

/-- The pieces between commas. -/
def splitCommas : List Char → List (List Char)
  | [] => [[]]
  | c :: cs =>
    if c = ',' then [] :: splitCommas cs
    else match splitCommas cs with
      | [] => [[c]]
      | piece :: pieces => (c :: piece) :: pieces

/-- The number written by a non-empty run of digits in a base. -/
def numeral (base : Nat) (cs : List Char) : Option Nat :=
  if cs = [] then none
  else cs.foldl (fun acc c => match acc, hexDigit c with
    | some n, some k => if k < base then some (n * base + k) else none
    | _, _ => none) (some 0)

/-- A number is decimal or `0x` hexadecimal (30_encoding R102). -/
def number : List Char → Option Nat
  | '0' :: 'x' :: ds => numeral 16 ds
  | ds => numeral 10 ds

/-- The double quote, character 34. -/
def quoteChar : Char := Char.ofNat 34

/-- The inside of a quoted string. -/
def quoted : List Char → Option (List Char)
  | [] => none
  | c :: cs =>
    match cs.reverse with
    | [] => none
    | last :: inside => if c = quoteChar ∧ last = quoteChar then some inside.reverse else none

/-- The source line a mnemonic and its operand texts stand for (30_encoding R102, R103). -/
def sourceOf (mnemonic : List Char) (ops : List (List Char)) : Except AsmError Source :=
  let bad : Except AsmError Source := .error .operands
  let one (f : Nat → Source) : Except AsmError Source := match ops with
    | [a] => match number a with
      | some x => .ok (f x)
      | none => bad
    | _ => bad
  let three (f : Nat → Nat → Nat → Source) : Except AsmError Source := match ops with
    | [a, b, c] => match number a, number b, number c with
      | some x, some y, some z => .ok (f x y z)
      | _, _, _ => bad
    | _ => bad
  let oneHex (f : Nat → List Char → Source) : Except AsmError Source := match ops with
    | [a, h] => match number a, quoted h with
      | some x, some cs => .ok (f x cs)
      | _, _ => bad
    | _ => bad
  let threeHex (f : Nat → Nat → Nat → List Char → Source) : Except AsmError Source := match ops with
    | [a, b, c, h] => match number a, number b, number c, quoted h with
      | some x, some y, some z, some cs => .ok (f x y z cs)
      | _, _, _, _ => bad
    | _ => bad
  if mnemonic = "STARTR.N".toList then three .startRN
  else if mnemonic = "STARTR.W".toList then three .startRW
  else if mnemonic = "STARTF.N".toList then one .startFN
  else if mnemonic = "STARTF.W".toList then one .startFW
  else if mnemonic = "DATA".toList then one .data
  else if mnemonic = "END".toList then (if ops = [] then .ok .end_ else bad)
  else if mnemonic = "CLR".toList then (if ops = [] then .ok .clr else bad)
  else if mnemonic = ".word".toList then one .rawWord
  else if mnemonic = "FRAME.N".toList then oneHex .frameN
  else if mnemonic = "FRAME.W".toList then oneHex .frameW
  else if mnemonic = "RAW.N".toList then threeHex .rawN
  else if mnemonic = "RAW.W".toList then threeHex .rawW
  else if mnemonic = "BYTES".toList then match ops with
    | [h] => match quoted h with
      | some cs => .ok (.bytes cs)
      | none => bad
    | _ => bad
  else .error .mnemonic

/-- The words of one line of text: one command, or nothing on an empty or comment line (30_encoding R102). -/
def assembleLine (line : List Char) : Except AsmError (List Word) :=
  let cs := trimBlank (dropComment line)
  if cs = [] then .ok []
  else
    let mnemonic := cs.takeWhile fun c => !c.isWhitespace
    let rest := trimBlank (cs.dropWhile fun c => !c.isWhitespace)
    let ops := if rest = [] then [] else (splitCommas rest).map trimBlank
    match sourceOf mnemonic ops with
    | .ok l => assemble l
    | .error e => .error e

/-- The words of a list of lines in order, or the error of the first line that has one. -/
def assembleLines : List (List Char) → Except AsmError (List Word)
  | [] => .ok []
  | line :: lines =>
    match assembleLine line, assembleLines lines with
    | .ok ws, .ok more => .ok (ws ++ more)
    | .error e, _ => .error e
    | _, .error e => .error e

end Sys2Proof.Machine
end

