-- ==== Sys2Proof/Machine/Reference.lean ====
section
/-!
DEFINITION. The reference functions of 40_reference_functions (R120 to R129): mathematics, not commands. A function that
has no value on an argument answers `none` there (R134, R135; 93_implementation_defined U1, U2, U4).
-/

namespace Sys2Proof.Machine

/-- `sum(data)`: the exact sum of the bytes (00_scope R9). -/
def byteSum (d : List Byte) : Nat := (d.map BitVec.toNat).sum

/-- The bytes read as one big-endian number: the earlier byte is the more significant (20_memory R66). -/
def bigEndian (d : List Byte) : Nat := d.foldl (fun n b => n * 256 + b.toNat) 0

/-- The last `k` bytes, all of them where there are fewer. -/
def lastBytes (k : Nat) (d : List Byte) : List Byte := d.drop (d.length - k)

/-- The summed set `data[0 .. |data| − T]` (40_reference_functions R125); empty where there are fewer than `T` bytes. -/
def summedSet (v : Variant) (d : List Byte) : List Byte := d.take (d.length - v.trimCount)

/-- `split(address) = (idh, idl)` (R122). -/
def split (address : Ident) : Byte × Byte := (splitHigh address, splitLow address)

/-- The identifier of two header bytes, `256·idh + idl` (R122). -/
def unsplit (idh idl : Byte) : Ident := BitVec.ofNat 16 (256 * idh.toNat + idl.toNat)

/-- The narrow primitive: `(idh + idl + len + sum(data)) mod 256` (R123). -/
def narrow (idh idl len : Byte) (d : List Byte) : Byte :=
  BitVec.ofNat 8 ((idh.toNat + idl.toNat + len.toNat + byteSum d) % 256)

/-- The wide primitive: the exact sum `idh + idl + len + sum(data)`, which has no value at or above 2^64 (R124). -/
def wide (idh idl len : Byte) (d : List Byte) : Option Wide :=
  let total := idh.toNat + idl.toNat + len.toNat + byteSum d
  if total < 2 ^ 64 then some (BitVec.ofNat 64 total) else none

/-- The narrow frame adapter, defined for `1 <= |data| <= 255` (R127). -/
def fromFrame (address : Ident) (d : List Byte) : Option Byte :=
  if 1 ≤ d.length ∧ d.length ≤ 255 then
    some (narrow (splitHigh address) (splitLow address) (BitVec.ofNat 8 d.length) (d.take (d.length - 1)))
  else none

/-- The wide frame adapter, defined for `4 <= |data| <= 255` (R128). -/
def fromFrameWide (address : Ident) (d : List Byte) : Option Wide :=
  if 4 ≤ d.length ∧ d.length ≤ 255 then
    wide (splitHigh address) (splitLow address) (BitVec.ofNat 8 d.length) (d.take (d.length - 4))
  else none

/-- The trailing field, defined for `|data| >= T`: the last `T` bytes, big-endian (R129). -/
def trailOf (v : Variant) (d : List Byte) : Option Word :=
  if v.trimCount ≤ d.length then some (BitVec.ofNat 32 (bigEndian (lastBytes v.trimCount d))) else none

end Sys2Proof.Machine
end

