-- ==== Sys2Proof/Safety.lean ====
section
/-!
DEFINITION. The terms in which the statements speak: the register invariants of 10_state R36, the partial-sum invariant of
R37, what a finished transaction means, and the phase column of the step table.
-/

namespace Sys2Proof.Machine

/-- The selected accumulator holds the number `n`: modulo 256 in `ACC8`, exactly in `ACCW` (10_state R37). -/
abbrev Regs.Holds (r : Regs) (n : Nat) : Prop :=
  (r.var = .narrow → r.acc8.toNat = n % 256) ∧ (r.var = .wide → r.accw.toNat = n)

/-- 10_state R36 (b): `ERR != 0` if and only if `PHASE = FAULT`. -/
abbrev Regs.ErrIffFault (r : Regs) : Prop := r.err ≠ .none ↔ r.phase = .fault

/-- 10_state R36 (a) to (g), under a configuration. -/
abbrev Regs.Invariants (c : Config) (r : Regs) : Prop :=
  r.cnt.toNat ≤ c.maxLen ∧
  (r.ErrIffFault ∧ r.err.code ≤ 4) ∧
  ((r.var = .narrow → r.accw = 0) ∧ (r.var = .wide → r.acc8 = 0)) ∧
  (r.layer = .raw → r.trail = 0) ∧
  (r.var = .narrow → r.trail.toNat < 2 ^ 8) ∧
  (r.phase = .idle → r = Regs.zero) ∧
  r.accw.toNat ≤ 65790

/-- What keeps clause (g) of R36 going from step to step: the wide sum is bounded by the bytes counted so far, with room
for the length byte while a frame is open (40_reference_functions R131). -/
abbrev Regs.WideBounded (r : Regs) : Prop :=
  r.accw.toNat ≤ 255 * (3 + r.cnt.toNat) ∧
  (r.phase = .active → r.layer = .frame → r.accw.toNat ≤ 255 * (2 + r.cnt.toNat))

/-- The invariant of the machine that every step keeps: R36, strengthened by the bound its clause (g) rests on. -/
abbrev State.Inv (s : State) : Prop := s.regs.Invariants s.cfg ∧ s.regs.WideBounded

/-- 10_state R37: `d` is the payload the open transaction has accepted so far. In the raw layer the accumulator is the
header sum with `LEN` and all of `d`; in the frame layer it is the header sum with all of `d` but the last `T` bytes, and
`TRAIL` is those bytes. -/
def Regs.PartialSumOf (r : Regs) (d : List Byte) : Prop :=
  d.length = r.cnt.toNat ∧
  (r.layer = .raw → r.Holds (r.idh.toNat + r.idl.toNat + r.len.toNat + byteSum d)) ∧
  (r.layer = .frame →
    r.Holds (r.idh.toNat + r.idl.toNat + byteSum (summedSet r.var d)) ∧
    r.trail.toNat = bigEndian (lastBytes r.var.trimCount d))

/-- 10_state R37 as a property of a state: while a transaction is open, some payload is its partial sum's. -/
def State.PartialSum (s : State) : Prop := s.regs.phase = .active → ∃ d, s.regs.PartialSumOf d

/-- `d` is the payload of the finished transaction: the selected result register is the document's function of the header
and `d`, and in the frame layer `LEN` is the count and `TRAIL` the trailing field (10_state R24, R31, R35). -/
def Regs.ResultOf (r : Regs) (d : List Byte) : Prop :=
  d.length = r.cnt.toNat ∧
  (r.layer = .raw → r.var = .narrow → r.acc8 = narrow r.idh r.idl r.len d) ∧
  (r.layer = .raw → r.var = .wide → wide r.idh r.idl r.len d = some r.accw) ∧
  (r.layer = .frame → r.var = .narrow → fromFrame (unsplit r.idh r.idl) d = some r.acc8) ∧
  (r.layer = .frame → r.var = .wide → fromFrameWide (unsplit r.idh r.idl) d = some r.accw) ∧
  (r.layer = .frame → r.len = r.cnt ∧ trailOf r.var d = some r.trail)

/-- While `done = 1`, the result registers are the document's function of some payload. -/
def State.ResultSound (s : State) : Prop := s.regs.phase = .done → ∃ d, s.regs.ResultOf d

/-- The registers with the two fault registers written and every other kept (60_exceptions R226). -/
abbrev Regs.faulted (r : Regs) (code : ErrCode) : Regs := { r with phase := .fault, err := code }

/-- Between the registers `r` before and `t` after, the number `x` has been added to the selected accumulator, modulo 256
in `ACC8` or modulo 2^64 in `ACCW`, and the other accumulator is unchanged (10_state R32, R33). -/
abbrev Regs.Added (r t : Regs) (x : Nat) : Prop :=
  (r.var = .narrow → t.acc8.toNat = (r.acc8.toNat + x) % 256 ∧ t.accw = r.accw) ∧
  (r.var = .wide → t.accw.toNat = (r.accw.toNat + x) % 2 ^ 64 ∧ t.acc8 = r.acc8)

/-- `run(s, ws)` of 44_transactions: one step for each word presented (R210, R211). -/
def runWords (s : State) (ws : List Word) : Host.Outcome State Fault Refusal :=
  Host.Core.run Sys2Proof.core ws.length (s.presenting ws)

/-- A start command is a command of 41_start_commands. -/
def isStart : Instr → Bool
  | .startRN .. | .startRW .. | .startFN .. | .startFW .. => true
  | .data _ | .end_ | .clr => false

/-- The phase after a step: the cells of the table of 43_control_commands R193, rows by what the word decodes to, the
conditions on the count and the layer read from the registers. -/
def phaseTable (r : Regs) (maxLen : Nat) : Decoded → Phase
  | .instr (.startRN ..) | .instr (.startRW ..) | .instr (.startFN ..) | .instr (.startFW ..) =>
    match r.phase with
    | .idle => .active
    | .active => .fault
    | .done => .active
    | .fault => .fault
  | .instr (.data _) =>
    match r.phase with
    | .active => if r.cnt.toNat = maxLen then .fault else .active
    | .idle | .done | .fault => .fault
  | .instr .end_ =>
    match r.phase with
    | .active => if r.layer = .frame ∧ r.cnt.toNat < r.var.trimCount then .fault else .done
    | .idle | .done | .fault => .fault
  | .instr .clr => .idle
  | .illegal _ => .fault

/-- How a run stands at its end (44_transactions R210). -/
inductive RunStatus where
  | succeeded
  | reportedError
  | unfinished
  deriving DecidableEq, Repr

/-- A run has succeeded at `done = 1`, reported an error at `fault = 1`, and is unfinished else (44_transactions R210). -/
def Regs.runStatus (r : Regs) : RunStatus :=
  match r.phase with
  | .done => .succeeded
  | .fault => .reportedError
  | .idle | .active => .unfinished

end Sys2Proof.Machine
end

