-- ==== Sys2Proof/Certificates/Slice0/Obligations.lean ====
section
/-!
DEFINITION. The statements for the provers, taken from the numbered rules of spec/.
-/

open Sys2Proof Sys2Proof.Machine

/-! ## Encoding (30_encoding) -/

/-- Every command is read back from its word, with every operand at every value (30_encoding R96, R102). -/
def Obligations.DecodeEncodeRoundTrip : Prop := ∀ i : Instr, decode (encode i) = .instr i

/-- Each legal word has one meaning: the word of the command it decodes to is the word itself (30_encoding R96, R102). -/
def Obligations.EncodeDecodeRoundTrip : Prop := ∀ (w : Word) (i : Instr), decode w = .instr i → encode i = w

/-- 30_encoding R98: the illegal words are exactly those of (a) to (e), the all-zero and the all-ones word are illegal, and
an illegal word raises `ILLEGAL` unless CORE is already in `FAULT`. -/
def Obligations.IllegalWordsExactly : Prop :=
  (∀ w : Word, (∃ why, decode w = .illegal why) ↔
    (w.toNat / 2 ^ 28 = 0 ∨ 6 ≤ w.toNat / 2 ^ 28) ∨
    ((w.toNat / 2 ^ 28 = 1 ∨ w.toNat / 2 ^ 28 = 2) ∧ w.toNat / 2 ^ 25 % 2 ^ 3 ≠ 0) ∨
    (w.toNat / 2 ^ 28 = 2 ∧ w.toNat / 2 ^ 16 % 2 ^ 8 ≠ 0) ∨
    (w.toNat / 2 ^ 28 = 3 ∧ w.toNat / 2 ^ 8 % 2 ^ 20 ≠ 0) ∨
    ((w.toNat / 2 ^ 28 = 4 ∨ w.toNat / 2 ^ 28 = 5) ∧ w.toNat % 2 ^ 28 ≠ 0)) ∧
  (∃ why, decode 0x00000000 = .illegal why) ∧ (∃ why, decode 0xFFFFFFFF = .illegal why) ∧
  (∀ (w : Word) (s : State), (∃ why, decode w = .illegal why) →
    (s.regs.phase ≠ .fault → step (s.presentFirst w) = .next { s with regs := s.regs.faulted .illegal }) ∧
    (s.regs.phase = .fault → step (s.presentFirst w) = .next s))

/-- The rows of the opcode map select their commands: a word decodes to a command of a row exactly when the row's mask and
match select it (30_encoding R97). -/
def Obligations.OpcodeTableSelects : Prop := ∀ w : Word,
  ((∃ idh idl len, decode w = .instr (.startRN idh idl len)) ↔ w &&& 0xFF000000 = 0x10000000) ∧
  ((∃ idh idl len, decode w = .instr (.startRW idh idl len)) ↔ w &&& 0xFF000000 = 0x11000000) ∧
  ((∃ a, decode w = .instr (.startFN a)) ↔ w &&& 0xFFFF0000 = 0x20000000) ∧
  ((∃ a, decode w = .instr (.startFW a)) ↔ w &&& 0xFFFF0000 = 0x21000000) ∧
  ((∃ b, decode w = .instr (.data b)) ↔ w &&& 0xFFFFFF00 = 0x30000000) ∧
  (decode w = .instr .end_ ↔ w &&& 0xFFFFFFFF = 0x40000000) ∧
  (decode w = .instr .clr ↔ w &&& 0xFFFFFFFF = 0x50000000)

/-- The legal words number 33,685,762 (30_encoding R97). -/
def Obligations.LegalWordCount : Prop := Nat.card { w : Word // ∃ i, decode w = .instr i } = 33685762

/-- Words written out in 95_test_vectors section 2.1 decode as that table says. -/
def Obligations.DecodesWordsOfTheVectors : Prop :=
  decode 0x1002E405 = .instr (.startRN 0x02 0xE4 0x05) ∧
  decode 0x11FFFFFF = .instr (.startRW 0xFF 0xFF 0xFF) ∧
  decode 0x200002E4 = .instr (.startFN 0x02E4) ∧
  decode 0x2100FFFF = .instr (.startFW 0xFFFF) ∧
  decode 0x300000FF = .instr (.data 0xFF) ∧
  decode 0x40000000 = .instr .end_ ∧
  decode 0x50000000 = .instr .clr ∧
  (∃ why, decode 0x12000000 = .illegal why) ∧
  (∃ why, decode 0x20010000 = .illegal why) ∧
  (∃ why, decode 0x30000100 = .illegal why) ∧
  (∃ why, decode 0x40000001 = .illegal why) ∧
  (∃ why, decode 0x60000000 = .illegal why)

/-! ## The commands (41_start_commands, 42_data_end_commands, 43_control_commands) -/

/-- 41_start_commands R150: `STARTR.N`, its word, every register it leaves, its faults. -/
def Obligations.StartRawNarrowOpens : Prop := ∀ (idh idl len : Byte) (s : State),
  (encode (.startRN idh idl len)).toNat = 0x10000000 + idh.toNat * 2 ^ 16 + idl.toNat * 2 ^ 8 + len.toNat ∧
  (s.regs.phase = .idle ∨ s.regs.phase = .done →
    ∃ t, exec (.startRN idh idl len) s = .next t ∧ t.cfg = s.cfg ∧ t.inputs = s.inputs ∧
      t.regs.phase = .active ∧ t.regs.err = s.regs.err ∧ t.regs.var = .narrow ∧ t.regs.layer = .raw ∧
      t.regs.idh = idh ∧ t.regs.idl = idl ∧ t.regs.len = len ∧ t.regs.cnt = 0 ∧ t.regs.trail = 0 ∧
      t.regs.acc8.toNat = (idh.toNat + idl.toNat + len.toNat) % 256 ∧ t.regs.accw = 0) ∧
  (s.regs.phase = .active →
    exec (.startRN idh idl len) s = .next { s with regs := s.regs.faulted .seq }) ∧
  (s.regs.phase = .fault → exec (.startRN idh idl len) s = .next s)

/-- 41_start_commands R151: `STARTR.W`, its word, every register it leaves, its faults. -/
def Obligations.StartRawWideOpens : Prop := ∀ (idh idl len : Byte) (s : State),
  (encode (.startRW idh idl len)).toNat = 0x11000000 + idh.toNat * 2 ^ 16 + idl.toNat * 2 ^ 8 + len.toNat ∧
  (s.regs.phase = .idle ∨ s.regs.phase = .done →
    ∃ t, exec (.startRW idh idl len) s = .next t ∧ t.cfg = s.cfg ∧ t.inputs = s.inputs ∧
      t.regs.phase = .active ∧ t.regs.err = s.regs.err ∧ t.regs.var = .wide ∧ t.regs.layer = .raw ∧
      t.regs.idh = idh ∧ t.regs.idl = idl ∧ t.regs.len = len ∧ t.regs.cnt = 0 ∧ t.regs.trail = 0 ∧
      t.regs.acc8 = 0 ∧ t.regs.accw.toNat = idh.toNat + idl.toNat + len.toNat ∧ t.regs.accw.toNat ≤ 765) ∧
  (s.regs.phase = .active →
    exec (.startRW idh idl len) s = .next { s with regs := s.regs.faulted .seq }) ∧
  (s.regs.phase = .fault → exec (.startRW idh idl len) s = .next s)

/-- 41_start_commands R152: `STARTF.N`, its word, every register it leaves, its faults. -/
def Obligations.StartFrameNarrowOpens : Prop := ∀ (address : Ident) (s : State),
  (encode (.startFN address)).toNat = 0x20000000 + address.toNat ∧
  (s.regs.phase = .idle ∨ s.regs.phase = .done →
    ∃ t, exec (.startFN address) s = .next t ∧ t.cfg = s.cfg ∧ t.inputs = s.inputs ∧
      t.regs.phase = .active ∧ t.regs.err = s.regs.err ∧ t.regs.var = .narrow ∧ t.regs.layer = .frame ∧
      t.regs.idh.toNat = address.toNat / 256 ∧ t.regs.idl.toNat = address.toNat % 256 ∧
      t.regs.len = 0 ∧ t.regs.cnt = 0 ∧ t.regs.trail = 0 ∧
      t.regs.acc8.toNat = (address.toNat / 256 + address.toNat % 256) % 256 ∧ t.regs.accw = 0) ∧
  (s.regs.phase = .active →
    exec (.startFN address) s = .next { s with regs := s.regs.faulted .seq }) ∧
  (s.regs.phase = .fault → exec (.startFN address) s = .next s)

/-- 41_start_commands R153: `STARTF.W`, its word, every register it leaves, its faults. -/
def Obligations.StartFrameWideOpens : Prop := ∀ (address : Ident) (s : State),
  (encode (.startFW address)).toNat = 0x21000000 + address.toNat ∧
  (s.regs.phase = .idle ∨ s.regs.phase = .done →
    ∃ t, exec (.startFW address) s = .next t ∧ t.cfg = s.cfg ∧ t.inputs = s.inputs ∧
      t.regs.phase = .active ∧ t.regs.err = s.regs.err ∧ t.regs.var = .wide ∧ t.regs.layer = .frame ∧
      t.regs.idh.toNat = address.toNat / 256 ∧ t.regs.idl.toNat = address.toNat % 256 ∧
      t.regs.len = 0 ∧ t.regs.cnt = 0 ∧ t.regs.trail = 0 ∧
      t.regs.acc8 = 0 ∧ t.regs.accw.toNat = address.toNat / 256 + address.toNat % 256) ∧
  (s.regs.phase = .active →
    exec (.startFW address) s = .next { s with regs := s.regs.faulted .seq }) ∧
  (s.regs.phase = .fault → exec (.startFW address) s = .next s)

/-- 41_start_commands R154: the phases in which the four start commands are accepted, fault and are ignored; an accepted
one overwrites every register but `ERR` whatever it held. -/
def Obligations.StartPhasePrecondition : Prop := ∀ (i : Instr) (s : State), isStart i = true →
  (s.regs.phase = .idle ∨ s.regs.phase = .done →
    ∃ t, exec i s = .next t ∧ t.regs.phase = .active ∧ t.regs.cnt = 0 ∧ t.regs.trail = 0 ∧
      ∀ r : Regs, r.phase = s.regs.phase → r.err = s.regs.err → exec i { s with regs := r } = .next t) ∧
  (s.regs.phase = .active → exec i s = .next { s with regs := s.regs.faulted .seq }) ∧
  (s.regs.phase = .fault → exec i s = .next s)

/-- 42_data_end_commands R170: `DATA`, its word, every register it leaves in either layer, its faults. -/
def Obligations.DataTakesByte : Prop := ∀ (b : Byte) (s : State),
  (encode (.data b)).toNat = 0x30000000 + b.toNat ∧
  (s.regs.phase = .idle ∨ s.regs.phase = .done →
    exec (.data b) s = .next { s with regs := s.regs.faulted .seq }) ∧
  (s.regs.phase = .fault → exec (.data b) s = .next s) ∧
  (s.regs.phase = .active → s.regs.cnt.toNat = s.cfg.maxLen →
    exec (.data b) s = .next { s with regs := s.regs.faulted .long }) ∧
  (s.regs.phase = .active → s.regs.cnt.toNat ≠ s.cfg.maxLen →
    ∃ t, exec (.data b) s = .next t ∧ t.cfg = s.cfg ∧ t.inputs = s.inputs ∧
      t.regs.phase = .active ∧ t.regs.err = s.regs.err ∧ t.regs.var = s.regs.var ∧ t.regs.layer = s.regs.layer ∧
      t.regs.idh = s.regs.idh ∧ t.regs.idl = s.regs.idl ∧ t.regs.len = s.regs.len ∧
      t.regs.cnt.toNat = (s.regs.cnt.toNat + 1) % 256 ∧
      (s.regs.layer = .raw → t.regs.trail = s.regs.trail ∧ s.regs.Added t.regs b.toNat) ∧
      (s.regs.layer = .frame →
        t.regs.trail.toNat = (s.regs.trail.toNat * 256 + b.toNat) % 2 ^ (8 * s.regs.var.trimCount) ∧
        (s.regs.cnt.toNat < s.regs.var.trimCount → s.regs.Added t.regs 0) ∧
        (s.regs.var.trimCount ≤ s.regs.cnt.toNat →
          s.regs.Added t.regs (s.regs.trail.toNat / 2 ^ (8 * s.regs.var.trimCount - 8) % 256))))

/-- 42_data_end_commands R171: `END`, its word, every register it leaves in either layer, its faults. -/
def Obligations.EndClosesTransaction : Prop := ∀ s : State,
  encode .end_ = 0x40000000 ∧
  (s.regs.phase = .idle ∨ s.regs.phase = .done →
    exec .end_ s = .next { s with regs := s.regs.faulted .seq }) ∧
  (s.regs.phase = .fault → exec .end_ s = .next s) ∧
  (s.regs.phase = .active → s.regs.layer = .raw →
    exec .end_ s = .next { s with regs := { s.regs with phase := .done } }) ∧
  (s.regs.phase = .active → s.regs.layer = .frame → s.regs.cnt.toNat < s.regs.var.trimCount →
    exec .end_ s = .next { s with regs := s.regs.faulted .short }) ∧
  (s.regs.phase = .active → s.regs.layer = .frame → s.regs.var.trimCount ≤ s.regs.cnt.toNat →
    ∃ t, exec .end_ s = .next t ∧ t.cfg = s.cfg ∧ t.inputs = s.inputs ∧
      t.regs.phase = .done ∧ t.regs.err = s.regs.err ∧ t.regs.var = s.regs.var ∧ t.regs.layer = s.regs.layer ∧
      t.regs.idh = s.regs.idh ∧ t.regs.idl = s.regs.idl ∧ t.regs.len = s.regs.cnt ∧ t.regs.cnt = s.regs.cnt ∧
      t.regs.trail = s.regs.trail ∧ s.regs.Added t.regs s.regs.cnt.toNat)

/-- 43_control_commands R190: `CLR` leaves the reset state from every phase and never faults; any other word with `op = 5`
is illegal, and in `FAULT` is ignored. -/
def Obligations.ClrReturnsToReset : Prop :=
  encode .clr = 0x50000000 ∧
  (∀ s : State, ∃ t, exec .clr s = .next t ∧ t.cfg = s.cfg ∧ t.inputs = s.inputs ∧
    t.regs.phase = .idle ∧ t.regs.err = .none ∧ t.regs.var = .narrow ∧ t.regs.layer = .raw ∧
    t.regs.idh = 0 ∧ t.regs.idl = 0 ∧ t.regs.len = 0 ∧ t.regs.cnt = 0 ∧
    t.regs.acc8 = 0 ∧ t.regs.accw = 0 ∧ t.regs.trail = 0 ∧ t.regs = State.reset.regs) ∧
  (∀ (w : Word) (s : State), w.toNat / 2 ^ 28 = 5 → w.toNat % 2 ^ 28 ≠ 0 →
    (∃ why, decode w = .illegal why) ∧ (s.regs.phase = .fault → step (s.presentFirst w) = .next s))

/-! ## The step (20_memory, 60_exceptions, 43_control_commands) -/

/-- A step in which a legal command word is presented is `exec` of the decoded command, at the state with that edge taken
from the host's list (20_memory R62, 30_encoding R96). -/
def Obligations.StepRunsDecodedCommand : Prop := ∀ (s : State) (p : PortIn) (rest : List PortIn) (i : Instr),
  s.inputs = p :: rest → p.rst = false → p.cmdValid = true → decode p.cmd = .instr i →
  step s = exec i { s with inputs := rest }

/-- 20_memory R62: at an edge with `rst = 1` the registers become the reset values whatever else is driven; without
`cmd_valid` they are unchanged; else the word is executed, and the new registers depend on the old ones, the word and
`MAXLEN` alone, not on what the host presents later. -/
def Obligations.ClockEdgeActs : Prop := ∀ (s : State) (p : PortIn) (rest : List PortIn), s.inputs = p :: rest →
  (p.rst = true → step s = .next { s with inputs := rest, regs := State.reset.regs }) ∧
  (p.rst = false → p.cmdValid = false → step s = .next { s with inputs := rest }) ∧
  (p.rst = false → p.cmdValid = true →
    (∀ i, decode p.cmd = .instr i → step s = exec i { s with inputs := rest }) ∧
    (∀ why, decode p.cmd = .illegal why →
      step s = .next (if s.regs.phase = .fault then { s with inputs := rest }
        else { s with inputs := rest, regs := s.regs.faulted .illegal })) ∧
    ∃ r, ∀ later, step { s with inputs := p :: later } = .next { s with inputs := later, regs := r })

/-- A host that presents nothing more leaves the machine as it is: the model's reading of 20_memory R62 and R70
(log entry 1). -/
def Obligations.NothingPresentedNothingChanges : Prop := ∀ s : State, s.inputs = [] → step s = .next s

/-- 60_exceptions R230: the fixed order of the checks in a step that is presented the word `cw`. -/
def Obligations.PriorityOfChecks : Prop := ∀ (s : State) (cw : Word),
  (s.regs.phase = .fault →
    step (s.presentFirst cw) = .next (if cw = 0x50000000 then { s with regs := State.reset.regs } else s)) ∧
  (s.regs.phase ≠ .fault → (∃ why, decode cw = .illegal why) →
    step (s.presentFirst cw) = .next { s with regs := s.regs.faulted .illegal }) ∧
  (s.regs.phase ≠ .fault → decode cw = .instr .clr →
    step (s.presentFirst cw) = .next { s with regs := State.reset.regs }) ∧
  (∀ i, s.regs.phase ≠ .fault → decode cw = .instr i → i ≠ .clr →
    let accepted := if isStart i = true then s.regs.phase = .idle ∨ s.regs.phase = .done else s.regs.phase = .active
    let isLong := (∃ b, i = .data b) ∧ s.regs.cnt.toNat = s.cfg.maxLen
    let isShort := i = .end_ ∧ s.regs.layer = .frame ∧ s.regs.cnt.toNat < s.regs.var.trimCount
    (¬ accepted → step (s.presentFirst cw) = .next { s with regs := s.regs.faulted .seq }) ∧
    (accepted → isLong → step (s.presentFirst cw) = .next { s with regs := s.regs.faulted .long }) ∧
    (accepted → isShort → step (s.presentFirst cw) = .next { s with regs := s.regs.faulted .short }) ∧
    (accepted → ¬ isLong → ¬ isShort →
      step (s.presentFirst cw) = exec i s ∧ ∃ t, exec i s = .next t ∧ t.regs.phase ≠ .fault))

/-- The phase column of the complete step table, and that every step is a next state, keeps the configuration and takes
one edge (43_control_commands R193, 70_reset_and_hazards R264). -/
def Obligations.PhaseStepTable : Prop :=
  (∀ (s : State) (cw : Word), ∃ t, step (s.presentFirst cw) = .next t ∧
    t.regs.phase = phaseTable s.regs s.cfg.maxLen (decode cw)) ∧
  (∀ s : State, ∃ t, step s = .next t ∧ t.cfg = s.cfg ∧ t.inputs = s.inputs.tail)

/-- 60_exceptions R225: the complete list of fault codes with their numbers; a word presented outside `FAULT` leaves each
code under that code's cause (R221 to R224) and under no other; `NONE` is what reset and `CLR` leave. -/
def Obligations.FaultCauses : Prop :=
  (ErrCode.none.code = 0 ∧ ErrCode.short.code = 1 ∧ ErrCode.long.code = 2 ∧ ErrCode.seq.code = 3 ∧
    ErrCode.illegal.code = 4) ∧ State.reset.regs.err = .none ∧
  ∀ (s t : State) (cw : Word), s.regs.phase ≠ .fault → step (s.presentFirst cw) = .next t →
  (t.regs.phase = .fault ∧ t.regs.err = .short ↔
    decode cw = .instr .end_ ∧ s.regs.phase = .active ∧ s.regs.layer = .frame ∧
      s.regs.cnt.toNat < s.regs.var.trimCount) ∧
  (t.regs.phase = .fault ∧ t.regs.err = .long ↔
    (∃ b, decode cw = .instr (.data b)) ∧ s.regs.phase = .active ∧ s.regs.cnt.toNat = s.cfg.maxLen) ∧
  (t.regs.phase = .fault ∧ t.regs.err = .seq ↔
    (∃ i, decode cw = .instr i ∧ isStart i = true) ∧ s.regs.phase = .active ∨
    ((∃ b, decode cw = .instr (.data b)) ∨ decode cw = .instr .end_) ∧
      (s.regs.phase = .idle ∨ s.regs.phase = .done)) ∧
  (t.regs.phase = .fault ∧ t.regs.err = .illegal ↔ ∃ why, decode cw = .illegal why) ∧
  ¬ (t.regs.phase = .fault ∧ t.regs.err = .none) ∧
  (decode cw = .instr .clr → t.regs.err = .none)

/-- A fault is precise: the faulting step writes `PHASE` and `ERR` and no other register, and a code other than `NONE`
(60_exceptions R226). -/
def Obligations.FaultEntryIsPrecise : Prop := ∀ s t : State, s.regs.phase ≠ .fault → step s = .next t →
  t.regs.phase = .fault →
  ∃ code, code ≠ .none ∧ t = { s with inputs := s.inputs.tail, regs := s.regs.faulted code }

/-- 60_exceptions R227: in `FAULT` every word but 0x50000000 changes no register, `ERR` included. -/
def Obligations.FaultIsSticky : Prop := ∀ (s : State) (cw : Word), s.regs.phase = .fault → cw ≠ 0x50000000 →
  step (s.presentFirst cw) = .next s

/-- 60_exceptions R228: `CLR` and `rst` are the only ways out of `FAULT`, and both leave the reset state. -/
def Obligations.OnlyClearOrResetLeavesFault : Prop := ∀ s t : State, s.regs.phase = .fault → step s = .next t →
  (t.regs ≠ s.regs → t.regs = State.reset.regs ∧
    ∃ p rest, s.inputs = p :: rest ∧ (p.rst = true ∨ p.cmdValid = true ∧ p.cmd = 0x50000000)) ∧
  (∀ p rest, s.inputs = p :: rest → (p.rst = true ∨ p.cmdValid = true ∧ p.cmd = 0x50000000) →
    t.regs = State.reset.regs)

/-- A fault swallows what follows: no list of words without `CLR` changes a register (70_reset_and_hazards R271). -/
def Obligations.FaultSwallowsWhatFollows : Prop := ∀ (ws : List Word) (s : State), s.regs.phase = .fault →
  (∀ w ∈ ws, w ≠ 0x50000000) → runWords s ws = .next { s with inputs := [] }

/-! ## Invariants (10_state) -/

/-- The registers after reset, and that they satisfy the invariants under every configuration and every list of the host
(10_state R36, R37, R39). -/
def Obligations.ResetSatisfiesInvariants : Prop := ∀ (c : Config) (ins : List PortIn),
  let s : State := { State.reset with cfg := c, inputs := ins }
  s.Inv ∧ s.PartialSum ∧ s.ResultSound

/-- Every step keeps the invariants of 10_state R36 (strengthened by the bound that clause (g) rests on). -/
def Obligations.StepKeepsRegisterInvariants : Prop := ∀ s t : State, s.Inv → step s = .next t → t.Inv

/-- 10_state R36: clauses (a) to (g) hold in every state reachable from reset, under every configuration and whatever the
host presents. -/
def Obligations.ReachableRegisterInvariants : Prop := ∀ (c : Config) (ins : List PortIn) (k : Nat) (t : State),
  Host.Core.run Sys2Proof.core k { State.reset with cfg := c, inputs := ins } = .next t →
  t.regs.cnt.toNat ≤ c.maxLen ∧
  (t.regs.err ≠ .none ↔ t.regs.phase = .fault) ∧ t.regs.err.code ≤ 4 ∧
  (t.regs.var = .narrow → t.regs.accw = 0) ∧ (t.regs.var = .wide → t.regs.acc8 = 0) ∧
  (t.regs.layer = .raw → t.regs.trail = 0) ∧
  (t.regs.var = .narrow → t.regs.trail.toNat < 2 ^ 8) ∧
  (t.regs.phase = .idle → t.regs = State.reset.regs) ∧
  t.regs.accw.toNat ≤ 65790

/-- The partial sum as an invariant every step keeps (10_state R37): while a transaction is open, the registers are the
partial sum of some payload of `CNT` bytes. -/
def Obligations.StepKeepsPartialSum : Prop := ∀ s t : State, s.Inv → s.PartialSum → step s = .next t → t.PartialSum

/-- 10_state R37: after a start command and the bytes `d`, the transaction is open and `d` is its partial sum's. -/
def Obligations.PartialSumAfterData : Prop := ∀ (s : State) (i : Instr) (d : List Byte), isStart i = true →
  (s.regs.phase = .idle ∨ s.regs.phase = .done) → d.length ≤ s.cfg.maxLen →
  ∃ t, runWords s (encode i :: dataWords d) = .next t ∧ t.regs.phase = .active ∧ t.regs.PartialSumOf d

/-- Whenever `done = 1`, the result registers are the document's function of the header and of a payload of `CNT` bytes:
every step keeps this (10_state R24, R31, R35; 44_transactions R200 to R203). -/
def Obligations.StepKeepsResultSound : Prop := ∀ s t : State, s.Inv → s.PartialSum → s.ResultSound →
  step s = .next t → t.ResultSound

/-- 10_state R38: an accepted start command leaves a state that does not depend on the registers before it. -/
def Obligations.NoStateCrossesTransaction : Prop := ∀ (i : Instr) (s s' : State), isStart i = true →
  (s.regs.phase = .idle ∨ s.regs.phase = .done) → (s'.regs.phase = .idle ∨ s'.regs.phase = .done) →
  s.regs.ErrIffFault → s'.regs.ErrIffFault → s.cfg = s'.cfg → s.inputs = s'.inputs →
  ∃ t, exec i s = .next t ∧ exec i s' = .next t

/-- Which command can change which register (10_state R40): variant, layer and header only a start command or `CLR`; the
count also `DATA`; the length byte also the `END` of a frame; the delay line also the `DATA` of a frame; an accumulator that
the variant does not select only a start command or `CLR`. -/
def Obligations.WritersOfEachRegister : Prop := ∀ (i : Instr) (s t : State), exec i s = .next t → isStart i = false → i ≠ .clr →
  t.regs.var = s.regs.var ∧ t.regs.layer = s.regs.layer ∧ t.regs.idh = s.regs.idh ∧ t.regs.idl = s.regs.idl ∧
  (t.regs.cnt ≠ s.regs.cnt → ∃ b, i = .data b) ∧
  (t.regs.len ≠ s.regs.len → i = .end_ ∧ s.regs.layer = .frame) ∧
  (t.regs.trail ≠ s.regs.trail → (∃ b, i = .data b) ∧ s.regs.layer = .frame) ∧
  (t.regs.acc8 ≠ s.regs.acc8 → s.regs.var = .narrow ∧ (i = .end_ → s.regs.layer = .frame)) ∧
  (t.regs.accw ≠ s.regs.accw → s.regs.var = .wide ∧ (i = .end_ → s.regs.layer = .frame)) ∧
  (t.regs.phase = .fault → t.regs = s.regs ∨ ∃ code, t.regs = s.regs.faulted code)

/-- 10_state R39: every register is zero after reset, as a state and as the event. -/
def Obligations.ResetLeavesEveryRegisterZero : Prop :=
  (State.reset.regs.phase = .idle ∧ State.reset.regs.err = .none ∧ State.reset.regs.var = .narrow ∧
    State.reset.regs.layer = .raw ∧ State.reset.regs.idh = 0 ∧ State.reset.regs.idl = 0 ∧ State.reset.regs.len = 0 ∧
    State.reset.regs.cnt = 0 ∧ State.reset.regs.acc8 = 0 ∧ State.reset.regs.accw = 0 ∧ State.reset.regs.trail = 0) ∧
  (∀ s : State, exec .clr s = .next { s with regs := State.reset.regs }) ∧
  (∀ (s : State) (valid : Bool) (cw : Word) (rest : List PortIn), s.inputs = PortIn.ofReset valid cw :: rest →
    step s = .next { s with inputs := rest, regs := State.reset.regs })

/-- 10_state R34: the layout of `STATUS`, field by field. -/
def Obligations.StatusLayout : Prop := ∀ r : Regs,
  (status r).toNat % 2 ^ 2 = r.phase.code ∧
  (status r).toNat / 2 ^ 2 % 2 ^ 3 = r.err.code ∧
  (status r).toNat / 2 ^ 5 % 2 = r.var.code ∧
  (status r).toNat / 2 ^ 6 % 2 = r.layer.code ∧
  (status r).toNat / 2 ^ 7 % 2 = 0 ∧
  (status r).toNat / 2 ^ 8 = r.cnt.toNat

/-- 70_reset_and_hazards R261: the output ports after reset, as a state and after a step with `rst = 1` from any state. -/
def Obligations.OutputsAfterReset : Prop :=
  State.reset.regs.outputs =
    { cmdReady := true, done := false, fault := false, status := 0x0000, res8 := 0x00, resw := 0, trail := 0,
      idh := 0, idl := 0, len := 0 } ∧
  ∀ (s : State) (p : PortIn) (rest : List PortIn), s.inputs = p :: rest → p.rst = true →
    ∃ t, step s = .next t ∧ t.inputs = rest ∧ t.regs.outputs = State.reset.regs.outputs

/-- What a host that follows the protocol reads: a sum exactly in `DONE`, from the accumulator of the variant; the code in
`FAULT`; nothing in `IDLE` and `ACTIVE` (70_reset_and_hazards R265, R266). -/
def Obligations.HostReadsResultOnlyWhenDone : Prop := ∀ r : Regs,
  (r.phase = .done → r.var = .narrow → r.outputs.read = .narrow r.acc8) ∧
  (r.phase = .done → r.var = .wide → r.outputs.read = .wide r.accw) ∧
  (r.phase = .fault → r.outputs.read = .failed r.err.code) ∧
  (r.phase = .idle ∨ r.phase = .active → r.outputs.read = .unfinished)

/-! ## Whole transactions (44_transactions) -/

/-- 44_transactions R200: the raw narrow transaction computes `narrow`. -/
def Obligations.RawNarrowTransaction : Prop := ∀ (s : State) (idh idl len : Byte) (d : List Byte),
  (s.regs.phase = .idle ∨ s.regs.phase = .done) → s.regs.ErrIffFault → d.length ≤ s.cfg.maxLen →
  runWords s (transaction (.startRN idh idl len) d) = .next { s with
    inputs := []
    regs := { phase := .done, err := .none, var := .narrow, layer := .raw, idh := idh, idl := idl, len := len,
              cnt := BitVec.ofNat 8 d.length, acc8 := narrow idh idl len d, accw := 0, trail := 0 } }

/-- 44_transactions R201: the raw wide transaction computes `wide`, which is `narrow` modulo 256. -/
def Obligations.RawWideTransaction : Prop := ∀ (s : State) (idh idl len : Byte) (d : List Byte),
  (s.regs.phase = .idle ∨ s.regs.phase = .done) → s.regs.ErrIffFault → d.length ≤ s.cfg.maxLen →
  ∃ sum, wide idh idl len d = some sum ∧ sum.toNat % 256 = (narrow idh idl len d).toNat ∧
    runWords s (transaction (.startRW idh idl len) d) = .next { s with
      inputs := []
      regs := { phase := .done, err := .none, var := .wide, layer := .raw, idh := idh, idl := idl, len := len,
                cnt := BitVec.ofNat 8 d.length, acc8 := 0, accw := sum, trail := 0 } }

/-- 44_transactions R202: the frame narrow transaction computes `from_frame`, and `TRAIL` is the byte it left out. -/
def Obligations.FrameNarrowTransaction : Prop := ∀ (s : State) (address : Ident) (d : List Byte),
  (s.regs.phase = .idle ∨ s.regs.phase = .done) → s.regs.ErrIffFault →
  1 ≤ d.length → d.length ≤ s.cfg.maxLen →
  ∃ sum field, fromFrame address d = some sum ∧ trailOf .narrow d = some field ∧
    field.toNat = (d.getLast?.map BitVec.toNat).getD 0 ∧
    runWords s (transaction (.startFN address) d) = .next { s with
      inputs := []
      regs := { phase := .done, err := .none, var := .narrow, layer := .frame,
                idh := BitVec.ofNat 8 (address.toNat / 256), idl := BitVec.ofNat 8 (address.toNat % 256),
                len := BitVec.ofNat 8 d.length, cnt := BitVec.ofNat 8 d.length, acc8 := sum, accw := 0,
                trail := field } }

/-- 44_transactions R203: the frame wide transaction computes `from_frame_wide`, and `TRAIL` is the four bytes it left
out. -/
def Obligations.FrameWideTransaction : Prop := ∀ (s : State) (address : Ident) (d : List Byte),
  (s.regs.phase = .idle ∨ s.regs.phase = .done) → s.regs.ErrIffFault →
  4 ≤ d.length → d.length ≤ s.cfg.maxLen →
  ∃ sum field, fromFrameWide address d = some sum ∧ trailOf .wide d = some field ∧
    runWords s (transaction (.startFW address) d) = .next { s with
      inputs := []
      regs := { phase := .done, err := .none, var := .wide, layer := .frame,
                idh := BitVec.ofNat 8 (address.toNat / 256), idl := BitVec.ofNat 8 (address.toNat % 256),
                len := BitVec.ofNat 8 d.length, cnt := BitVec.ofNat 8 d.length, acc8 := 0, accw := sum,
                trail := field } }

/-- 44_transactions R204: a frame shorter than the trim count ends in `SHORT`, with nothing summed and the bytes received
in `TRAIL`. -/
def Obligations.ShortFrameFaults : Prop := ∀ (s : State) (address : Ident) (d : List Byte),
  (s.regs.phase = .idle ∨ s.regs.phase = .done) → s.regs.ErrIffFault →
  (d.length < 1 → runWords s (transaction (.startFN address) d) = .next { s with
    inputs := []
    regs := { phase := .fault, err := .short, var := .narrow, layer := .frame,
              idh := BitVec.ofNat 8 (address.toNat / 256), idl := BitVec.ofNat 8 (address.toNat % 256),
              len := 0, cnt := BitVec.ofNat 8 d.length,
              acc8 := BitVec.ofNat 8 (address.toNat / 256 + address.toNat % 256), accw := 0,
              trail := BitVec.ofNat 32 (bigEndian d) } }) ∧
  (d.length < 4 → runWords s (transaction (.startFW address) d) = .next { s with
    inputs := []
    regs := { phase := .fault, err := .short, var := .wide, layer := .frame,
              idh := BitVec.ofNat 8 (address.toNat / 256), idl := BitVec.ofNat 8 (address.toNat % 256),
              len := 0, cnt := BitVec.ofNat 8 d.length, acc8 := 0,
              accw := BitVec.ofNat 64 (address.toNat / 256 + address.toNat % 256),
              trail := BitVec.ofNat 32 (bigEndian d) } })

/-- 44_transactions R205: in any of the four transactions a payload of more than `MAXLEN` bytes ends in `LONG`, and every
other register holds what it held after the `MAXLEN`-th byte. -/
def Obligations.LongPayloadFaults : Prop := ∀ (s : State) (i : Instr) (d : List Byte), isStart i = true →
  (s.regs.phase = .idle ∨ s.regs.phase = .done) → s.cfg.maxLen < d.length →
  ∃ t, runWords s (encode i :: dataWords (d.take s.cfg.maxLen)) = .next t ∧ t.regs.phase = .active ∧
    runWords s (transaction i d) = .next { t with regs := t.regs.faulted .long }

/-- 44_transactions R206: an illegal word or a second start command inside a transaction faults, whatever follows without
`CLR`; `CLR` abandons the transaction, and a `DATA` or `END` after it faults with `SEQ`. -/
def Obligations.InterruptedTransaction : Prop := ∀ (s : State) (i : Instr) (d : List Byte) (w : Word) (rest : List Word),
  isStart i = true → (s.regs.phase = .idle ∨ s.regs.phase = .done) → d.length ≤ s.cfg.maxLen →
  (∀ x ∈ rest, x ≠ 0x50000000) →
  ((∃ why, decode w = .illegal why) →
    ∃ t, runWords s (encode i :: (dataWords d ++ w :: rest)) = .next t ∧ t.regs.phase = .fault ∧ t.regs.err = .illegal) ∧
  ((∃ j, isStart j = true ∧ decode w = .instr j) →
    ∃ t, runWords s (encode i :: (dataWords d ++ w :: rest)) = .next t ∧ t.regs.phase = .fault ∧ t.regs.err = .seq) ∧
  (∃ t, runWords s (encode i :: (dataWords d ++ [encode .clr])) = .next t ∧ t.regs = State.reset.regs) ∧
  ((decode w = .instr .end_ ∨ ∃ b, decode w = .instr (.data b)) →
    ∃ t, runWords s (encode i :: (dataWords d ++ encode .clr :: w :: rest)) = .next t ∧
      t.regs = State.reset.regs.faulted .seq)

/-- 44_transactions R207: what a transaction leaves does not depend on the state it starts from, beyond the phase, whatever
its payload. -/
def Obligations.TransactionIndependentOfHistory : Prop := ∀ (s s' : State) (i : Instr) (d : List Byte),
  isStart i = true →
  (s.regs.phase = .idle ∨ s.regs.phase = .done) → (s'.regs.phase = .idle ∨ s'.regs.phase = .done) →
  s.regs.ErrIffFault → s'.regs.ErrIffFault → s.cfg = s'.cfg →
  ∃ t, runWords s (transaction i d) = .next t ∧ runWords s' (transaction i d) = .next t ∧
    (t.regs.phase = .done → runWords t (transaction i d) = .next t)

/-- 44_transactions R208: after `DONE` the next start command is accepted at once; in `FAULT` it is ignored and the whole
transaction with it, and after `CLR` a transaction runs as from reset. -/
def Obligations.BackToBackTransactions : Prop := ∀ (s : State) (i : Instr) (d : List Byte), isStart i = true →
  (s.regs.phase = .done → ∃ t, step (s.presentFirst (encode i)) = .next t ∧ t.regs.phase = .active) ∧
  (s.regs.phase = .fault →
    runWords s (transaction i d) = .next { s with inputs := [] } ∧
    (∃ t, runWords s [encode .clr, encode i] = .next t ∧ t.regs.phase = .active) ∧
    runWords s (encode .clr :: transaction i d) = runWords { s with regs := State.reset.regs } (transaction i d))

/-- 44_transactions R209: a frame transaction and the raw transaction on the split header, the full length and the trimmed
payload leave the same sum, header and length; they differ in `LAYER`, `CNT` and `TRAIL`. -/
def Obligations.LayersAgree : Prop := ∀ (s : State) (address : Ident) (d : List Byte),
  (s.regs.phase = .idle ∨ s.regs.phase = .done) → d.length ≤ s.cfg.maxLen →
  let idh := BitVec.ofNat 8 (address.toNat / 256)
  let idl := BitVec.ofNat 8 (address.toNat % 256)
  let len := BitVec.ofNat 8 d.length
  (1 ≤ d.length → ∃ t u,
    runWords s (transaction (.startFN address) d) = .next t ∧
    runWords s (transaction (.startRN idh idl len) (d.take (d.length - 1))) = .next u ∧
    t.regs.acc8 = u.regs.acc8 ∧ t.regs.idh = u.regs.idh ∧ t.regs.idl = u.regs.idl ∧ t.regs.len = u.regs.len ∧
    t.regs.layer = .frame ∧ u.regs.layer = .raw ∧
    t.regs.cnt.toNat = d.length ∧ u.regs.cnt.toNat = d.length - 1 ∧
    some t.regs.trail = trailOf .narrow d ∧ u.regs.trail = 0) ∧
  (4 ≤ d.length → ∃ t u,
    runWords s (transaction (.startFW address) d) = .next t ∧
    runWords s (transaction (.startRW idh idl len) (d.take (d.length - 4))) = .next u ∧
    t.regs.accw = u.regs.accw ∧ t.regs.idh = u.regs.idh ∧ t.regs.idl = u.regs.idl ∧ t.regs.len = u.regs.len ∧
    t.regs.layer = .frame ∧ u.regs.layer = .raw ∧
    t.regs.cnt.toNat = d.length ∧ u.regs.cnt.toNat = d.length - 4 ∧
    some t.regs.trail = trailOf .wide d ∧ u.regs.trail = 0)

/-- 42_data_end_commands R172: after `n` bytes of a frame the accumulator holds the header sum with the first `n - T` bytes
and `TRAIL` the others, oldest most significant; at `END` the summed set is the document's slice and `TRAIL` the trailing
field. -/
def Obligations.DelayLineSumsTheSlice : Prop := ∀ (s : State) (v : Variant) (address : Ident) (d : List Byte),
  let start : Instr := match v with
    | .narrow => .startFN address
    | .wide => .startFW address
  (s.regs.phase = .idle ∨ s.regs.phase = .done) → d.length ≤ s.cfg.maxLen →
  ∃ t, runWords s (encode start :: dataWords d) = .next t ∧ t.regs.phase = .active ∧ t.regs.var = v ∧
    t.regs.layer = .frame ∧ t.regs.cnt.toNat = d.length ∧
    t.regs.Holds (address.toNat / 256 + address.toNat % 256 + byteSum (d.take (d.length - v.trimCount))) ∧
    t.regs.trail.toNat = bigEndian (d.drop (d.length - v.trimCount)) ∧
    (v.trimCount ≤ d.length → ∃ u, exec .end_ t = .next u ∧ u.regs.phase = .done ∧ trailOf v d = some u.regs.trail ∧
      u.regs.Holds (address.toNat / 256 + address.toNat % 256 + d.length + byteSum (d.take (d.length - v.trimCount))))

/-- 44_transactions R210, R211: a run takes one step for each word and always ends in a next state with the list used up;
a transaction with `n` payload bytes is `n + 2` words; what the host reads at the end says how the run stands. -/
def Obligations.RunsUseUpTheirWords : Prop :=
  (∀ (s : State) (ws : List Word), ∃ t, runWords s ws = .next t ∧
    Host.Core.run Sys2Proof.core ws.length (s.presenting ws) = .next t ∧ t.inputs = [] ∧ t.cfg = s.cfg) ∧
  (∀ (i : Instr) (d : List Byte), (transaction i d).length = d.length + 2) ∧
  (∀ r : Regs, (r.runStatus = .succeeded ↔ r.outputs.done = true) ∧
    (r.runStatus = .reportedError ↔ r.outputs.fault = true) ∧
    (r.runStatus = .unfinished ↔ r.phase = .idle ∨ r.phase = .active))

/-! ## The reference functions (40_reference_functions) -/

/-- 40_reference_functions R122: the split of an identifier, total, and the identifier recovered from it. -/
def Obligations.SplitRecoversIdentifier : Prop :=
  (∀ address : Ident,
    (split address).1.toNat = address.toNat / 256 ∧ (split address).2.toNat = address.toNat % 256 ∧
    address.toNat = 256 * (split address).1.toNat + (split address).2.toNat) ∧
  split 0x02e4 = (0x02, 0xe4) ∧ split 0x0190 = (0x01, 0x90) ∧ split 0x0000 = (0x00, 0x00) ∧
  split 0xffff = (0xff, 0xff)

/-- The bounds on the wide sum (40_reference_functions R131): on the primitive, on the adapter, and at `MAXLEN`. -/
def Obligations.WideSumBounded : Prop :=
  (∀ (idh idl len : Byte) (d : List Byte) (n : Nat) (w : Wide), d.length ≤ n → wide idh idl len d = some w →
    w.toNat ≤ 255 * (3 + n)) ∧
  (∀ (idh idl len : Byte) (d : List Byte) (c : Config), d.length ≤ c.maxLen →
    ∃ w, wide idh idl len d = some w ∧ w.toNat ≤ 65790) ∧
  (∀ (address : Ident) (d : List Byte) (w : Wide), fromFrameWide address d = some w →
    w.toNat ≤ 255 + 255 + d.length + 255 * (d.length - 4) ∧ w.toNat ≤ 64770)

/-- 40_reference_functions R132: the narrow primitive is the wide one modulo 256, and the frame adapters do not stand in
this relation. -/
def Obligations.NarrowIsWideModulo256 : Prop :=
  (∀ (idh idl len : Byte) (d : List Byte) (w : Wide), wide idh idl len d = some w →
    (narrow idh idl len d).toNat = w.toNat % 256) ∧
  (∃ (address : Ident) (d : List Byte) (n : Byte) (w : Wide),
    fromFrame address d = some n ∧ fromFrameWide address d = some w ∧ n.toNat ≠ w.toNat % 256)

/-- The trimmed bytes do not matter: two payloads of one length that agree on the summed set have the same checksum
(40_reference_functions R133). -/
def Obligations.TrimmedBytesDoNotMatter : Prop := ∀ (address : Ident) (d e : List Byte), d.length = e.length →
  (d.take (d.length - 1) = e.take (e.length - 1) → fromFrame address d = fromFrame address e) ∧
  (d.take (d.length - 4) = e.take (e.length - 4) → fromFrameWide address d = fromFrameWide address e)

/-- A sum does not depend on the order of its terms (40_reference_functions R130): permuted bytes and swapped header bytes
give the same checksum. -/
def Obligations.SumIsOrderFree : Prop := ∀ (idh idl len : Byte) (d e : List Byte), d.Perm e →
  narrow idh idl len d = narrow idh idl len e ∧ wide idh idl len d = wide idh idl len e ∧
  narrow idh idl len d = narrow idl idh len d ∧ wide idh idl len d = wide idl idh len d

/-! ## The assembler (30_encoding R102 to R104) -/

/-- 30_encoding R104: hex strings round trip, a string of odd length is refused, and so is one with a character that is no
hex digit. -/
def Obligations.HexStringsRoundTrip : Prop :=
  (∀ d : List Byte, hexDecode (hexEncode d) = some d) ∧
  (∀ cs : List Char, cs.length % 2 = 1 → hexDecode cs = none) ∧
  (∀ cs : List Char, (∃ c ∈ cs, hexDigit c = none) → hexDecode cs = none) ∧
  (∀ cs : List Char, cs.length % 2 = 0 → (∀ c ∈ cs, hexDigit c ≠ none) →
    ∃ d, hexDecode cs = some d ∧ 2 * d.length = cs.length)

/-- No assembled command is an illegal word: every word of a line that is not `.word` decodes to a command, and a line is
refused exactly when it is not well formed (30_encoding R102, R103). -/
def Obligations.AssembledWordsAreCommands : Prop := ∀ l : Source,
  (l.wellFormed = true ↔ ∃ ws, assemble l = .ok ws) ∧
  (∀ ws, assemble l = .ok ws → (∀ w, l ≠ .rawWord w) → ∀ w ∈ ws, ∃ i, decode w = .instr i)
end

