-- ==== Sys2Proof/Laws/Decode.lean ====
section
/-!
SUPPORT. The fields of a word as numbers.
-/

namespace Sys2Proof

theorem bits_eq (w : Word) (hi lo : Nat) : bits w hi lo = w.toNat / 2 ^ lo % 2 ^ (hi - lo + 1) := rfl

@[simp] theorem byteAt_toNat (w : Word) (lo : Nat) : (byteAt w lo).toNat = w.toNat / 2 ^ lo % 256 := by
  simp only [byteAt, bits, BitVec.toNat_ofNat]
  have : lo + 7 - lo + 1 = 8 := by omega
  rw [this]; omega

@[simp] theorem identAt_toNat (w : Word) : (identAt w).toNat = w.toNat % 65536 := by
  simp only [identAt, bits, BitVec.toNat_ofNat]; omega

/-- The command a word stands for, read off the decoder's outcome. -/
theorem decodeInstr_eq_some {w : Word} {i : Instr} : decodeInstr w = some i ↔ decode w = .instr i := by
  unfold decodeInstr
  split <;> simp_all

end Sys2Proof
end

