-- ==== Sys2Proof/Laws/Reference.lean ====
section
/-!
SUPPORT. The arithmetic of byte lists: sums, big-endian numbers, the last bytes, and the split of an identifier.
-/

namespace Sys2Proof.Machine

@[simp] theorem byteSum_nil : byteSum [] = 0 := rfl

@[simp] theorem byteSum_cons (b : Byte) (d : List Byte) : byteSum (b :: d) = b.toNat + byteSum d := rfl

@[simp] theorem byteSum_append (d e : List Byte) : byteSum (d ++ e) = byteSum d + byteSum e := by
  simp [byteSum]

/-- A sum of bytes is at most 255 a byte. -/
theorem byteSum_le (d : List Byte) : byteSum d ≤ 255 * d.length := by
  induction d with
  | nil => simp
  | cons b d ih => have := b.isLt; simp only [byteSum_cons, List.length_cons]; omega

@[simp] theorem bigEndian_nil : bigEndian [] = 0 := rfl

@[simp] theorem bigEndian_snoc (d : List Byte) (b : Byte) : bigEndian (d ++ [b]) = bigEndian d * 256 + b.toNat := by
  simp [bigEndian]

/-- A first byte is the most significant. -/
theorem bigEndian_cons (b : Byte) (d : List Byte) : bigEndian (b :: d) = b.toNat * 256 ^ d.length + bigEndian d := by
  induction d using List.reverseRecOn with
  | nil => simp [bigEndian]
  | append_singleton d x ih =>
    rw [← List.cons_append, bigEndian_snoc, bigEndian_snoc, ih, List.length_append, List.length_singleton, pow_succ]
    ring

/-- A big-endian number of `n` bytes is below `256 ^ n`. -/
theorem bigEndian_lt (d : List Byte) : bigEndian d < 256 ^ d.length := by
  induction d using List.reverseRecOn with
  | nil => simp
  | append_singleton d x ih =>
    have := x.isLt
    rw [bigEndian_snoc, List.length_append, List.length_singleton, pow_succ]
    omega

@[simp] theorem lastBytes_length (k : Nat) (d : List Byte) : (lastBytes k d).length = min k d.length := by
  simp only [lastBytes, List.length_drop]; omega

/-- Fewer than `k` bytes are all among the last `k`. -/
theorem lastBytes_of_length_le {k : Nat} {d : List Byte} (h : d.length ≤ k) : lastBytes k d = d := by
  simp [lastBytes, Nat.sub_eq_zero_of_le h]

/-- Once `k` bytes are there, a new last byte pushes the oldest of them out. -/
theorem lastBytes_snoc_of_le {k : Nat} {d : List Byte} (hk : 0 < k) (h : k ≤ d.length) (b : Byte) :
    lastBytes k (d ++ [b]) = (lastBytes k d).tail ++ [b] := by
  have h1 : d.length + 1 - k = d.length - k + 1 := by omega
  rw [lastBytes, lastBytes, List.length_append, List.length_singleton, h1, List.tail_drop,
    List.drop_append_of_le_length (by omega)]

/-- The two halves of an identifier give it back. -/
theorem unsplit_split (address : Ident) : unsplit (splitHigh address) (splitLow address) = address := by
  have := address.isLt
  apply BitVec.eq_of_toNat_eq
  simp only [unsplit, splitHigh, splitLow, BitVec.toNat_ofNat]
  omega

@[simp] theorem splitHigh_unsplit (idh idl : Byte) : splitHigh (unsplit idh idl) = idh := by
  have := idh.isLt
  have := idl.isLt
  apply BitVec.eq_of_toNat_eq
  simp only [unsplit, splitHigh, BitVec.toNat_ofNat]
  omega

@[simp] theorem splitLow_unsplit (idh idl : Byte) : splitLow (unsplit idh idl) = idl := by
  have := idh.isLt
  have := idl.isLt
  apply BitVec.eq_of_toNat_eq
  simp only [unsplit, splitLow, BitVec.toNat_ofNat]
  omega

@[simp] theorem narrow_toNat (idh idl len : Byte) (d : List Byte) :
    (narrow idh idl len d).toNat = (idh.toNat + idl.toNat + len.toNat + byteSum d) % 256 := by
  simp [narrow, BitVec.toNat_ofNat]

/-- The wide primitive has a value exactly below 2^64, and there it is the exact sum. -/
theorem wide_eq_some {idh idl len : Byte} {d : List Byte} {w : Wide} :
    wide idh idl len d = some w ↔ w.toNat = idh.toNat + idl.toNat + len.toNat + byteSum d := by
  have hw := w.isLt
  simp only [wide]
  split
  · rename_i h
    rw [Option.some.injEq, ← BitVec.toNat_inj, BitVec.toNat_ofNat, Nat.mod_eq_of_lt h]
    exact eq_comm
  · simp only [reduceCtorEq, false_iff]; omega

end Sys2Proof.Machine
end

