-- ==== Sys2Proof/Laws/State.lean ====
section
/-!
SUPPORT. One lemma for each field and each update of the state: no later proof unfolds a record update.
-/

namespace Sys2Proof.Machine

@[simp] theorem State.withRegs_regs (s : State) (r : Regs) : (s.withRegs r).regs = r := rfl
@[simp] theorem State.withRegs_cfg (s : State) (r : Regs) : (s.withRegs r).cfg = s.cfg := rfl
@[simp] theorem State.withRegs_inputs (s : State) (r : Regs) : (s.withRegs r).inputs = s.inputs := rfl

@[simp] theorem State.raise_regs (s : State) (e : ErrCode) :
    (s.raise e).regs = { s.regs with phase := .fault, err := e } := rfl
@[simp] theorem State.raise_cfg (s : State) (e : ErrCode) : (s.raise e).cfg = s.cfg := rfl
@[simp] theorem State.raise_inputs (s : State) (e : ErrCode) : (s.raise e).inputs = s.inputs := rfl

@[simp] theorem State.clear_regs (s : State) : s.clear.regs = Regs.zero := rfl
@[simp] theorem State.clear_cfg (s : State) : s.clear.cfg = s.cfg := rfl
@[simp] theorem State.clear_inputs (s : State) : s.clear.inputs = s.inputs := rfl

@[simp] theorem State.withInputs_regs (s : State) (l : List PortIn) : (s.withInputs l).regs = s.regs := rfl
@[simp] theorem State.withInputs_cfg (s : State) (l : List PortIn) : (s.withInputs l).cfg = s.cfg := rfl
@[simp] theorem State.withInputs_inputs (s : State) (l : List PortIn) : (s.withInputs l).inputs = l := rfl
@[simp] theorem State.withInputs_withInputs (s : State) (l m : List PortIn) :
    (s.withInputs l).withInputs m = s.withInputs m := rfl
@[simp] theorem State.withRegs_withInputs (s : State) (r : Regs) (l : List PortIn) :
    (s.withInputs l).withRegs r = (s.withRegs r).withInputs l := rfl
@[simp] theorem State.raise_withInputs (s : State) (e : ErrCode) (l : List PortIn) :
    (s.withInputs l).raise e = (s.raise e).withInputs l := rfl
@[simp] theorem State.clear_withInputs (s : State) (l : List PortIn) :
    (s.withInputs l).clear = s.clear.withInputs l := rfl

@[simp] theorem State.presenting_regs (s : State) (ws : List Word) : (s.presenting ws).regs = s.regs := rfl
@[simp] theorem State.presenting_cfg (s : State) (ws : List Word) : (s.presenting ws).cfg = s.cfg := rfl
@[simp] theorem State.presenting_inputs (s : State) (ws : List Word) :
    (s.presenting ws).inputs = ws.map PortIn.ofWord := rfl

@[simp] theorem State.presentFirst_regs (s : State) (cw : Word) : (s.presentFirst cw).regs = s.regs := rfl
@[simp] theorem State.presentFirst_cfg (s : State) (cw : Word) : (s.presentFirst cw).cfg = s.cfg := rfl
@[simp] theorem State.presentFirst_inputs (s : State) (cw : Word) :
    (s.presentFirst cw).inputs = PortIn.ofWord cw :: s.inputs := rfl

@[simp] theorem PortIn.ofWord_edge (cw : Word) : (PortIn.ofWord cw).edge = .command cw := rfl
@[simp] theorem PortIn.ofReset_edge (valid : Bool) (cw : Word) : (PortIn.ofReset valid cw).edge = .reset := rfl

@[simp] theorem State.nextEdge_presentFirst (s : State) (cw : Word) :
    (s.presentFirst cw).nextEdge = (.command cw, s) := rfl

/-- Everything taking the next edge can do: the host's list is empty and nothing is asked, or its head is taken. -/
theorem State.nextEdge_cases (s : State) :
    (s.inputs = [] ∧ s.nextEdge = (.quiet, s)) ∨
    ∃ p rest, s.inputs = p :: rest ∧ s.nextEdge = (p.edge, s.withInputs rest) := by
  cases h : s.inputs with
  | nil => exact .inl ⟨rfl, by simp [State.nextEdge, h]⟩
  | cons p rest => exact .inr ⟨p, rest, rfl, by simp [State.nextEdge, h]⟩

end Sys2Proof.Machine
end

