-- ==== Sys2Proof/Laws/Ops.lean ====
section
/-!
SUPPORT. What each shared operation does, said once: the provers cite these lemmas and unfold no operation.
-/

namespace Sys2Proof

/-- `MAXLEN` is in its range (00_scope R6). -/
theorem Config.maxLen_bounds (c : Config) : 8 ≤ c.maxLen ∧ c.maxLen ≤ 255 := by
  have := c.maxLenAbove8.isLt
  simp only [Config.maxLen]; omega

end Sys2Proof

namespace Sys2Proof.Machine

@[simp] theorem zext64_toNat (b : Byte) : (zext64 b).toNat = b.toNat := by
  have := b.isLt
  simp only [zext64, BitVec.toNat_ofNat]; omega

@[simp] theorem splitHigh_toNat (address : Ident) : (splitHigh address).toNat = address.toNat / 256 := by
  have := address.isLt
  simp only [splitHigh, BitVec.toNat_ofNat]; omega

@[simp] theorem splitLow_toNat (address : Ident) : (splitLow address).toNat = address.toNat % 256 := by
  simp only [splitLow, BitVec.toNat_ofNat]; omega

@[simp] theorem Variant.trimCount_narrow : Variant.narrow.trimCount = 1 := rfl
@[simp] theorem Variant.trimCount_wide : Variant.wide.trimCount = 4 := rfl

@[simp] theorem oldestByte_toNat (v : Variant) (trail : Word) :
    (oldestByte v trail).toNat = trail.toNat / 2 ^ (8 * v.trimCount - 8) % 256 := by
  simp [oldestByte, BitVec.toNat_ofNat]

@[simp] theorem shiftIn_toNat (v : Variant) (trail : Word) (b : Byte) :
    (shiftIn v trail b).toNat = (trail.toNat * 256 + b.toNat) % 2 ^ (8 * v.trimCount) := by
  cases v <;> simp only [shiftIn, BitVec.toNat_ofNat, Variant.trimCount] <;> omega

/-! The phase check -/

theorem State.whenAccepted_fault {acc : Phase → Bool} {f : State → State} {s : State} (h : s.regs.phase = .fault) :
    s.whenAccepted acc f = s := by simp [State.whenAccepted, h]

theorem State.whenAccepted_accepted {acc : Phase → Bool} {f : State → State} {s : State}
    (hf : s.regs.phase ≠ .fault) (h : acc s.regs.phase = true) : s.whenAccepted acc f = f s := by
  simp [State.whenAccepted, hf, h]

theorem State.whenAccepted_refused {acc : Phase → Bool} {f : State → State} {s : State}
    (hf : s.regs.phase ≠ .fault) (h : acc s.regs.phase = false) : s.whenAccepted acc f = s.raise .seq := by
  simp [State.whenAccepted, hf, h]

/-- Everything the phase check can do. -/
theorem State.whenAccepted_cases (acc : Phase → Bool) (f : State → State) (s : State) :
    (s.regs.phase = .fault ∧ s.whenAccepted acc f = s) ∨
    (s.regs.phase ≠ .fault ∧ acc s.regs.phase = true ∧ s.whenAccepted acc f = f s) ∨
    (s.regs.phase ≠ .fault ∧ acc s.regs.phase = false ∧ s.whenAccepted acc f = s.raise .seq) := by
  by_cases hf : s.regs.phase = .fault
  · exact .inl ⟨hf, State.whenAccepted_fault hf⟩
  · cases h : acc s.regs.phase
    · exact .inr (.inr ⟨hf, rfl, State.whenAccepted_refused hf h⟩)
    · exact .inr (.inl ⟨hf, rfl, State.whenAccepted_accepted hf h⟩)

/-- The phases a start command is accepted in. -/
theorem acceptsStart_eq_true {p : Phase} : acceptsStart p = true ↔ p = .idle ∨ p = .done := by
  cases p <;> simp [acceptsStart]

/-- The phase `DATA` and `END` are accepted in. -/
theorem acceptsTransfer_eq_true {p : Phase} : acceptsTransfer p = true ↔ p = .active := by
  cases p <;> simp [acceptsTransfer]

/-- What an illegal word does outside `FAULT`. -/
theorem State.illegalWord_of_ne {s : State} (h : s.regs.phase ≠ .fault) : s.illegalWord = s.raise .illegal := by
  simp [State.illegalWord, h]

theorem State.illegalWord_fault {s : State} (h : s.regs.phase = .fault) : s.illegalWord = s := by
  simp [State.illegalWord, h]

/-! The adders -/

@[simp] theorem Regs.addByte_phase (r : Regs) (x : Byte) : (r.addByte x).phase = r.phase := by
  cases h : r.var <;> simp [Regs.addByte, h]
@[simp] theorem Regs.addByte_err (r : Regs) (x : Byte) : (r.addByte x).err = r.err := by
  cases h : r.var <;> simp [Regs.addByte, h]
@[simp] theorem Regs.addByte_var (r : Regs) (x : Byte) : (r.addByte x).var = r.var := by
  cases h : r.var <;> simp [Regs.addByte, h]
@[simp] theorem Regs.addByte_layer (r : Regs) (x : Byte) : (r.addByte x).layer = r.layer := by
  cases h : r.var <;> simp [Regs.addByte, h]
@[simp] theorem Regs.addByte_idh (r : Regs) (x : Byte) : (r.addByte x).idh = r.idh := by
  cases h : r.var <;> simp [Regs.addByte, h]
@[simp] theorem Regs.addByte_idl (r : Regs) (x : Byte) : (r.addByte x).idl = r.idl := by
  cases h : r.var <;> simp [Regs.addByte, h]
@[simp] theorem Regs.addByte_len (r : Regs) (x : Byte) : (r.addByte x).len = r.len := by
  cases h : r.var <;> simp [Regs.addByte, h]
@[simp] theorem Regs.addByte_cnt (r : Regs) (x : Byte) : (r.addByte x).cnt = r.cnt := by
  cases h : r.var <;> simp [Regs.addByte, h]
@[simp] theorem Regs.addByte_trail (r : Regs) (x : Byte) : (r.addByte x).trail = r.trail := by
  cases h : r.var <;> simp [Regs.addByte, h]

theorem Regs.addByte_acc8_narrow {r : Regs} (h : r.var = .narrow) (x : Byte) :
    (r.addByte x).acc8.toNat = (r.acc8.toNat + x.toNat) % 256 := by simp [Regs.addByte, h, BitVec.toNat_add]
theorem Regs.addByte_accw_narrow {r : Regs} (h : r.var = .narrow) (x : Byte) : (r.addByte x).accw = r.accw := by
  simp [Regs.addByte, h]
theorem Regs.addByte_accw_wide {r : Regs} (h : r.var = .wide) (x : Byte) :
    (r.addByte x).accw.toNat = (r.accw.toNat + x.toNat) % 2 ^ 64 := by simp [Regs.addByte, h, BitVec.toNat_add]
theorem Regs.addByte_acc8_wide {r : Regs} (h : r.var = .wide) (x : Byte) : (r.addByte x).acc8 = r.acc8 := by
  simp [Regs.addByte, h]

@[simp] theorem Regs.addBytes_nil (r : Regs) : r.addBytes [] = r := rfl
@[simp] theorem Regs.addBytes_cons (r : Regs) (x : Byte) (xs : List Byte) :
    r.addBytes (x :: xs) = (r.addByte x).addBytes xs := rfl

/-- Everything adding a list of bytes does: the selected accumulator gains their sum, nothing else changes. -/
theorem Regs.addBytes_spec (xs : List Byte) (r : Regs) :
    ∃ a w, r.addBytes xs = { r with acc8 := a, accw := w } ∧
      (r.var = .narrow → a.toNat = (r.acc8.toNat + byteSum xs) % 256 ∧ w = r.accw) ∧
      (r.var = .wide → w.toNat = (r.accw.toNat + byteSum xs) % 2 ^ 64 ∧ a = r.acc8) := by
  induction xs generalizing r with
  | nil =>
    refine ⟨r.acc8, r.accw, rfl, fun _ => ⟨?_, rfl⟩, fun _ => ⟨?_, rfl⟩⟩
    · have := r.acc8.isLt; simp only [byteSum_nil]; omega
    · have := r.accw.isLt; simp only [byteSum_nil]; omega
  | cons x xs ih =>
    obtain ⟨a, w, h, hn, hw⟩ := ih (r.addByte x)
    refine ⟨a, w, ?_, fun hv => ?_, fun hv => ?_⟩
    · rw [Regs.addBytes_cons, h]
      cases hv : r.var <;> simp [Regs.addByte, hv]
    · obtain ⟨h1, h2⟩ := hn (by simpa using hv)
      rw [Regs.addByte_acc8_narrow hv] at h1
      rw [Regs.addByte_accw_narrow hv] at h2
      refine ⟨?_, h2⟩
      rw [byteSum_cons]; omega
    · obtain ⟨h1, h2⟩ := hw (by simpa using hv)
      rw [Regs.addByte_accw_wide hv] at h1
      rw [Regs.addByte_acc8_wide hv] at h2
      refine ⟨?_, h2⟩
      rw [byteSum_cons]; omega

/-! Opening, taking a byte, closing -/

/-- Everything opening a transaction does. -/
theorem State.openWith_spec (v : Variant) (l : Layer) (idh idl len : Byte) (terms : List Byte) (s : State) :
    ∃ a w, s.openWith v l idh idl len terms = s.withRegs
        { phase := .active, err := s.regs.err, var := v, layer := l, idh := idh, idl := idl, len := len, cnt := 0,
          acc8 := a, accw := w, trail := 0 } ∧
      (v = .narrow → a.toNat = byteSum terms % 256 ∧ w = 0) ∧
      (v = .wide → w.toNat = byteSum terms % 2 ^ 64 ∧ a = 0) := by
  obtain ⟨a, w, h, hn, hw⟩ := Regs.addBytes_spec terms
    { phase := .active, err := s.regs.err, var := v, layer := l, idh := idh, idl := idl, len := len, cnt := 0,
      acc8 := 0, accw := 0, trail := 0 }
  refine ⟨a, w, ?_, fun hv => ?_, fun hv => ?_⟩
  · rw [State.openWith, h]
  · simpa using hn hv
  · simpa using hw hv

/-- The byte a `DATA` adds in the raw layer. -/
theorem summedByte_raw {r : Regs} (h : r.layer = .raw) (b : Byte) : summedByte r b = some b := by
  simp [summedByte, h]

/-- The byte a `DATA` adds in the frame layer. -/
theorem summedByte_frame {r : Regs} (h : r.layer = .frame) (b : Byte) :
    summedByte r b = if r.var.trimCount ≤ r.cnt.toNat then some (oldestByte r.var r.trail) else none := by
  simp [summedByte, h]

@[simp] theorem Regs.takeByte_phase (r : Regs) (b : Byte) : (r.takeByte b).phase = r.phase := by
  cases h : summedByte r b <;> simp [Regs.takeByte, h]
@[simp] theorem Regs.takeByte_err (r : Regs) (b : Byte) : (r.takeByte b).err = r.err := by
  cases h : summedByte r b <;> simp [Regs.takeByte, h]
@[simp] theorem Regs.takeByte_var (r : Regs) (b : Byte) : (r.takeByte b).var = r.var := by
  cases h : summedByte r b <;> simp [Regs.takeByte, h]
@[simp] theorem Regs.takeByte_layer (r : Regs) (b : Byte) : (r.takeByte b).layer = r.layer := by
  cases h : summedByte r b <;> simp [Regs.takeByte, h]
@[simp] theorem Regs.takeByte_idh (r : Regs) (b : Byte) : (r.takeByte b).idh = r.idh := by
  cases h : summedByte r b <;> simp [Regs.takeByte, h]
@[simp] theorem Regs.takeByte_idl (r : Regs) (b : Byte) : (r.takeByte b).idl = r.idl := by
  cases h : summedByte r b <;> simp [Regs.takeByte, h]
@[simp] theorem Regs.takeByte_len (r : Regs) (b : Byte) : (r.takeByte b).len = r.len := by
  cases h : summedByte r b <;> simp [Regs.takeByte, h]
@[simp] theorem Regs.takeByte_cnt (r : Regs) (b : Byte) : (r.takeByte b).cnt = r.cnt + 1 := rfl
@[simp] theorem Regs.takeByte_trail (r : Regs) (b : Byte) : (r.takeByte b).trail = nextTrail r b := rfl

theorem Regs.takeByte_acc_some {r : Regs} {b x : Byte} (h : summedByte r b = some x) :
    (r.takeByte b).acc8 = (r.addByte x).acc8 ∧ (r.takeByte b).accw = (r.addByte x).accw := by
  simp [Regs.takeByte, h]

theorem Regs.takeByte_acc_none {r : Regs} {b : Byte} (h : summedByte r b = none) :
    (r.takeByte b).acc8 = r.acc8 ∧ (r.takeByte b).accw = r.accw := by
  simp [Regs.takeByte, h]

theorem nextTrail_raw {r : Regs} (h : r.layer = .raw) (b : Byte) : nextTrail r b = r.trail := by
  simp [nextTrail, h]

theorem nextTrail_frame {r : Regs} (h : r.layer = .frame) (b : Byte) : nextTrail r b = shiftIn r.var r.trail b := by
  simp [nextTrail, h]

/-- Everything `DATA` can do in `ACTIVE`. -/
theorem State.dataRule_cases (b : Byte) (s : State) :
    (s.regs.cnt.toNat = s.cfg.maxLen ∧ s.dataRule b = s.raise .long) ∨
    (s.regs.cnt.toNat ≠ s.cfg.maxLen ∧ s.dataRule b = s.withRegs (s.regs.takeByte b)) := by
  by_cases h : s.regs.cnt.toNat = s.cfg.maxLen
  · exact .inl ⟨h, by simp [State.dataRule, h]⟩
  · exact .inr ⟨h, by simp [State.dataRule, h]⟩

/-- Everything `END` can do in `ACTIVE`. -/
theorem State.endRule_cases (s : State) :
    (s.regs.layer = .raw ∧ s.endRule = s.withRegs { s.regs with phase := .done }) ∨
    (s.regs.layer = .frame ∧ s.regs.cnt.toNat < s.regs.var.trimCount ∧ s.endRule = s.raise .short) ∨
    (s.regs.layer = .frame ∧ s.regs.var.trimCount ≤ s.regs.cnt.toNat ∧
      s.endRule = s.withRegs s.regs.closeFrame) := by
  cases hl : s.regs.layer with
  | raw => exact .inl ⟨rfl, by simp [State.endRule, hl]⟩
  | frame =>
    by_cases h : s.regs.cnt.toNat < s.regs.var.trimCount
    · exact .inr (.inl ⟨rfl, h, by simp [State.endRule, hl, h]⟩)
    · exact .inr (.inr ⟨rfl, by omega, by simp [State.endRule, hl, h]⟩)

@[simp] theorem Regs.closeFrame_phase (r : Regs) : r.closeFrame.phase = .done := rfl
@[simp] theorem Regs.closeFrame_len (r : Regs) : r.closeFrame.len = r.cnt := rfl
@[simp] theorem Regs.closeFrame_err (r : Regs) : r.closeFrame.err = r.err := by simp [Regs.closeFrame]
@[simp] theorem Regs.closeFrame_var (r : Regs) : r.closeFrame.var = r.var := by simp [Regs.closeFrame]
@[simp] theorem Regs.closeFrame_layer (r : Regs) : r.closeFrame.layer = r.layer := by simp [Regs.closeFrame]
@[simp] theorem Regs.closeFrame_idh (r : Regs) : r.closeFrame.idh = r.idh := by simp [Regs.closeFrame]
@[simp] theorem Regs.closeFrame_idl (r : Regs) : r.closeFrame.idl = r.idl := by simp [Regs.closeFrame]
@[simp] theorem Regs.closeFrame_cnt (r : Regs) : r.closeFrame.cnt = r.cnt := by simp [Regs.closeFrame]
@[simp] theorem Regs.closeFrame_trail (r : Regs) : r.closeFrame.trail = r.trail := by simp [Regs.closeFrame]
@[simp] theorem Regs.closeFrame_acc8 (r : Regs) : r.closeFrame.acc8 = (r.addByte r.cnt).acc8 := rfl
@[simp] theorem Regs.closeFrame_accw (r : Regs) : r.closeFrame.accw = (r.addByte r.cnt).accw := rfl

end Sys2Proof.Machine
end

