-- ==== Sys2Proof/Laws/PerInstr.lean ====
section
/-!
SUPPORT. Statements about every command as syntax, one lemma per constructor. Family `OpcodeBits`: the fixed bits of a
command's word are those spec/opcode_table.json gives its row (30_encoding R97).
-/

namespace Sys2Proof.Laws.OpcodeBits

/-- The fixed bits of the row of spec/opcode_table.json, as its "fixed" entry gives them: `hi`, `lo`, `value`. -/
def fixedBits : Instr → Nat × Nat × Nat
  | .startRN .. => (31, 24, 16)
  | .startRW .. => (31, 24, 17)
  | .startFN .. => (31, 16, 8192)
  | .startFW .. => (31, 16, 8448)
  | .data .. => (31, 8, 3145728)
  | .end_ => (31, 0, 1073741824)
  | .clr => (31, 0, 1342177280)

/-- The word of `i` has the fixed bits of its row. -/
def Statement (i : Instr) : Prop := bits (encode i) (fixedBits i).1 (fixedBits i).2.1 = (fixedBits i).2.2

theorem startRN (idh idl len : Byte) : Statement (.startRN idh idl len) := by
  have := idh.isLt; have := idl.isLt; have := len.isLt
  simp only [Statement, fixedBits, bits, encode, BitVec.toNat_ofNat]; omega

theorem startRW (idh idl len : Byte) : Statement (.startRW idh idl len) := by
  have := idh.isLt; have := idl.isLt; have := len.isLt
  simp only [Statement, fixedBits, bits, encode, BitVec.toNat_ofNat]; omega

theorem startFN (address : Ident) : Statement (.startFN address) := by
  have := address.isLt
  simp only [Statement, fixedBits, bits, encode, BitVec.toNat_ofNat]; omega

theorem startFW (address : Ident) : Statement (.startFW address) := by
  have := address.isLt
  simp only [Statement, fixedBits, bits, encode, BitVec.toNat_ofNat]; omega

theorem data (b : Byte) : Statement (.data b) := by
  have := b.isLt
  simp only [Statement, fixedBits, bits, encode, BitVec.toNat_ofNat]; omega

theorem end_ : Statement .end_ := by unfold Statement; decide

theorem clr : Statement .clr := by unfold Statement; decide

end Sys2Proof.Laws.OpcodeBits
end

