-- ==== Sys2Proof/Laws/Step.lean ====
section
/-!
SUPPORT. What `exec`, a step and a run can do, said once.
-/

namespace Sys2Proof.Machine

@[simp] theorem exec_startRN (idh idl len : Byte) (s : State) :
    exec (.startRN idh idl len) s = .next (s.whenAccepted acceptsStart (State.openRaw .narrow idh idl len)) := rfl
@[simp] theorem exec_startRW (idh idl len : Byte) (s : State) :
    exec (.startRW idh idl len) s = .next (s.whenAccepted acceptsStart (State.openRaw .wide idh idl len)) := rfl
@[simp] theorem exec_startFN (address : Ident) (s : State) :
    exec (.startFN address) s = .next (s.whenAccepted acceptsStart (State.openFrame .narrow address)) := rfl
@[simp] theorem exec_startFW (address : Ident) (s : State) :
    exec (.startFW address) s = .next (s.whenAccepted acceptsStart (State.openFrame .wide address)) := rfl
@[simp] theorem exec_data (b : Byte) (s : State) :
    exec (.data b) s = .next (s.whenAccepted acceptsTransfer (State.dataRule b)) := rfl
@[simp] theorem exec_end (s : State) :
    exec .end_ s = .next (s.whenAccepted acceptsTransfer State.endRule) := rfl
@[simp] theorem exec_clr (s : State) : exec .clr s = .next s.clear := rfl

/-- Every accepted start command opens a transaction with some variant, layer, header and header terms. -/
theorem exec_start_shape {i : Instr} (h : isStart i = true) :
    ∃ v l idh idl len terms, ∀ s : State,
      exec i s = .next (s.whenAccepted acceptsStart (State.openWith v l idh idl len terms)) := by
  cases i with
  | startRN idh idl len => exact ⟨.narrow, .raw, idh, idl, len, [idh, idl, len], fun _ => rfl⟩
  | startRW idh idl len => exact ⟨.wide, .raw, idh, idl, len, [idh, idl, len], fun _ => rfl⟩
  | startFN a => exact ⟨.narrow, .frame, splitHigh a, splitLow a, 0, [splitHigh a, splitLow a], fun _ => rfl⟩
  | startFW a => exact ⟨.wide, .frame, splitHigh a, splitLow a, 0, [splitHigh a, splitLow a], fun _ => rfl⟩
  | data b => cases h
  | end_ => cases h
  | clr => cases h

/-- Everything a step can do. -/
theorem step_cases (s : State) :
    (s.inputs = [] ∧ step s = .next s) ∨
    ∃ p rest, s.inputs = p :: rest ∧
      ((p.edge = .reset ∧ step s = .next (s.clear.withInputs rest)) ∨
       (p.edge = .quiet ∧ step s = .next (s.withInputs rest)) ∨
       (∃ cw i, p.edge = .command cw ∧ decode cw = .instr i ∧ step s = exec i (s.withInputs rest)) ∨
       (∃ cw why, p.edge = .command cw ∧ decode cw = .illegal why ∧
         step s = .next (s.withInputs rest).illegalWord)) := by
  obtain ⟨h, he⟩ | ⟨p, rest, h, he⟩ := s.nextEdge_cases
  · exact .inl ⟨h, by simp [step, he]⟩
  · refine .inr ⟨p, rest, h, ?_⟩
    cases hp : p.edge with
    | reset => exact .inl ⟨rfl, by simp [step, he, hp]⟩
    | quiet => exact .inr (.inl ⟨rfl, by simp [step, he, hp]⟩)
    | command cw =>
      cases hd : decode cw with
      | instr i => exact .inr (.inr (.inl ⟨cw, i, rfl, hd, by simp [step, he, hp, hd]⟩))
      | illegal why => exact .inr (.inr (.inr ⟨cw, why, rfl, hd, by simp [step, he, hp, hd]⟩))

/-- A run of no words changes nothing but the host's list. -/
theorem runWords_nil (s : State) : runWords s [] = .next (s.withInputs []) := rfl

/-- The phase check does not look at what the host presents later, if the rule does not. -/
theorem State.whenAccepted_inputs {acc : Phase → Bool} {f : State → State} {s : State} {l : List PortIn}
    (h : f (s.withInputs l) = (f s).withInputs l) :
    (s.withInputs l).whenAccepted acc f = (s.whenAccepted acc f).withInputs l := by
  simp only [State.whenAccepted, State.withInputs_regs, State.raise_withInputs, h]
  split
  · rfl
  · split <;> rfl

/-- Everything a command does it does whatever the host presents later: it answers a next state, and another list of the
host's goes through unchanged. -/
theorem exec_next (i : Instr) (s : State) :
    ∃ t, exec i s = .next t ∧ t.cfg = s.cfg ∧ t.inputs = s.inputs ∧
      ∀ l, exec i (s.withInputs l) = .next (t.withInputs l) := by
  cases i with
  | startRN idh idl len =>
    refine ⟨_, rfl, ?_, ?_, fun l => congrArg _ (State.whenAccepted_inputs rfl)⟩ <;>
      (obtain ⟨-, e⟩ | ⟨-, -, e⟩ | ⟨-, -, e⟩ := State.whenAccepted_cases acceptsStart (State.openRaw .narrow idh idl len) s <;>
        rw [e] <;> rfl)
  | startRW idh idl len =>
    refine ⟨_, rfl, ?_, ?_, fun l => congrArg _ (State.whenAccepted_inputs rfl)⟩ <;>
      (obtain ⟨-, e⟩ | ⟨-, -, e⟩ | ⟨-, -, e⟩ := State.whenAccepted_cases acceptsStart (State.openRaw .wide idh idl len) s <;>
        rw [e] <;> rfl)
  | startFN a =>
    refine ⟨_, rfl, ?_, ?_, fun l => congrArg _ (State.whenAccepted_inputs rfl)⟩ <;>
      (obtain ⟨-, e⟩ | ⟨-, -, e⟩ | ⟨-, -, e⟩ := State.whenAccepted_cases acceptsStart (State.openFrame .narrow a) s <;>
        rw [e] <;> rfl)
  | startFW a =>
    refine ⟨_, rfl, ?_, ?_, fun l => congrArg _ (State.whenAccepted_inputs rfl)⟩ <;>
      (obtain ⟨-, e⟩ | ⟨-, -, e⟩ | ⟨-, -, e⟩ := State.whenAccepted_cases acceptsStart (State.openFrame .wide a) s <;>
        rw [e] <;> rfl)
  | data b =>
    refine ⟨_, rfl, ?_, ?_, fun l => congrArg _ (State.whenAccepted_inputs ?_)⟩
    iterate 2
      obtain ⟨-, e⟩ | ⟨-, -, e⟩ | ⟨-, -, e⟩ := State.whenAccepted_cases acceptsTransfer (State.dataRule b) s
      · rw [e]
      · rw [e]; obtain ⟨-, e⟩ | ⟨-, e⟩ := s.dataRule_cases b <;> rw [e] <;> rfl
      · rw [e]; rfl
    by_cases h : s.regs.cnt.toNat = s.cfg.maxLen <;> simp [State.dataRule, h]
  | end_ =>
    refine ⟨_, rfl, ?_, ?_, fun l => congrArg _ (State.whenAccepted_inputs ?_)⟩
    iterate 2
      obtain ⟨-, e⟩ | ⟨-, -, e⟩ | ⟨-, -, e⟩ := State.whenAccepted_cases acceptsTransfer State.endRule s
      · rw [e]
      · rw [e]; obtain ⟨-, e⟩ | ⟨-, -, e⟩ | ⟨-, -, e⟩ := s.endRule_cases <;> rw [e] <;> rfl
      · rw [e]; rfl
    cases hl : s.regs.layer with
    | raw => simp [State.endRule, hl]
    | frame =>
      by_cases h : s.regs.cnt.toNat < s.regs.var.trimCount <;>
        simp [State.endRule, hl, h]
  | clr => exact ⟨_, rfl, rfl, rfl, fun _ => rfl⟩

/-- A step that is presented a word answers a next state, whose registers do not depend on what the host presents later. -/
theorem step_presentFirst (s : State) (cw : Word) :
    ∃ t, step (s.presentFirst cw) = .next t ∧ t.cfg = s.cfg ∧ t.inputs = s.inputs ∧
      ∀ l, step ((s.withInputs l).presentFirst cw) = .next (t.withInputs l) := by
  cases hd : decode cw with
  | instr i =>
    obtain ⟨t, h, hc, hi, hl⟩ := exec_next i s
    exact ⟨t, by simp [step, hd, h], hc, hi, fun l => by simp [step, hd, hl]⟩
  | illegal why =>
    refine ⟨s.illegalWord, by simp [step, hd], ?_, ?_, fun l => ?_⟩
    · by_cases h : s.regs.phase = .fault <;> simp [State.illegalWord, h]
    · by_cases h : s.regs.phase = .fault <;> simp [State.illegalWord, h]
    · by_cases h : s.regs.phase = .fault <;> simp [step, hd, State.illegalWord, h]

/-- A run of words is a step on the first word, then a run of the others from the state it leaves. -/
theorem runWords_cons {s t : State} {cw : Word} (h : step (s.presentFirst cw) = .next t) (ws : List Word) :
    runWords s (cw :: ws) = runWords t ws := by
  obtain ⟨u, hu, -, -, hl⟩ := step_presentFirst s cw
  cases hu.symm.trans h
  have h1 : Sys2Proof.core.step (s.presenting (cw :: ws)) = .next (t.presenting ws) :=
    hl (ws.map PortIn.ofWord)
  simp only [runWords, List.length_cons, Host.Core.run, h1]
  rfl

/-- Every run of words ends in a next state with the host's list used up. -/
theorem runWords_next (ws : List Word) (s : State) :
    ∃ t, runWords s ws = .next t ∧ t.cfg = s.cfg ∧ t.inputs = [] := by
  induction ws generalizing s with
  | nil => exact ⟨_, rfl, rfl, rfl⟩
  | cons cw ws ih =>
    obtain ⟨t, h, hc, -, -⟩ := step_presentFirst s cw
    obtain ⟨u, hu, huc, hui⟩ := ih t
    exact ⟨u, by rw [runWords_cons h, hu], huc.trans hc, hui⟩

end Sys2Proof.Machine
end

