-- ==== Sys2Proof/Tests/Slice0.lean ====
section
/-!
SUPPORT. Small tests. Every expected value is the spec's own: the decoding table, the single-step tables and the hex table
of 95_test_vectors (its row ids stand in the comments). After them, one witness for each statement that has hypotheses.
-/

namespace Sys2Proof.Tests

open Sys2Proof.Machine

/-! ## Words written out from the spec's encodings (95_test_vectors section 2.1) -/

theorem test_decode_startRN : decode 0x1002E405 = .instr (.startRN 0x02 0xE4 0x05) := by decide
theorem test_decode_startRN_least : decode 0x10000000 = .instr (.startRN 0x00 0x00 0x00) := by decide
theorem test_decode_startRN_largest : decode 0x10FFFFFF = .instr (.startRN 0xFF 0xFF 0xFF) := by decide
theorem test_decode_startRW : decode 0x11FFFE03 = .instr (.startRW 0xFF 0xFE 0x03) := by decide
theorem test_decode_startFN : decode 0x200002E4 = .instr (.startFN 0x02E4) := by decide
theorem test_decode_startFN_largest : decode 0x2000FFFF = .instr (.startFN 0xFFFF) := by decide
theorem test_decode_startFW : decode 0x21000190 = .instr (.startFW 0x0190) := by decide
theorem test_decode_data : decode 0x300000F8 = .instr (.data 0xF8) := by decide
theorem test_decode_end : decode 0x40000000 = .instr .end_ := by decide
theorem test_decode_clr : decode 0x50000000 = .instr .clr := by decide

theorem test_illegal_opcode_zero : decode 0x00000000 = .illegal .opcode := by decide
theorem test_illegal_bare_byte : decode 0x0000002A = .illegal .opcode := by decide
theorem test_illegal_opcode_six : decode 0x60000000 = .illegal .opcode := by decide
theorem test_illegal_opcode_ones : decode 0xFFFFFFFF = .illegal .opcode := by decide
theorem test_illegal_start_bit25 : decode 0x12000000 = .illegal .startBits := by decide
theorem test_illegal_start_bit27 : decode 0x18000000 = .illegal .startBits := by decide
theorem test_illegal_frame_bit25 : decode 0x22000000 = .illegal .startBits := by decide
theorem test_illegal_frame_bit16 : decode 0x20010000 = .illegal .frameBits := by decide
theorem test_illegal_frame_bit23 : decode 0x20800000 = .illegal .frameBits := by decide
theorem test_illegal_data_bit8 : decode 0x30000100 = .illegal .dataBits := by decide
theorem test_illegal_data_bit24 : decode 0x31000000 = .illegal .dataBits := by decide
theorem test_illegal_end_bit0 : decode 0x40000001 = .illegal .zeroBits := by decide
theorem test_illegal_clr_bit27 : decode 0x58000000 = .illegal .zeroBits := by decide

theorem test_encode_startRN : encode (.startRN 0x02 0xE4 0x05) = 0x1002E405 := by decide
theorem test_encode_startRW : encode (.startRW 0xFF 0xFE 0x03) = 0x11FFFE03 := by decide
theorem test_encode_startFN : encode (.startFN 0x02E4) = 0x200002E4 := by decide
theorem test_encode_startFW : encode (.startFW 0x0190) = 0x21000190 := by decide
theorem test_encode_data : encode (.data 0xF8) = 0x300000F8 := by decide

theorem test_table_word : decodeTableWord 32 0x2100FFFF = some (.startFW 0xFFFF) := by decide
theorem test_table_word_illegal : decodeTableWord 32 0x41000000 = none := by decide

/-! ## Ill-formed lines: one for each check (30_encoding R102, R104) -/

theorem test_illFormed_idh : (Source.startRN 256 0 0).wellFormed = false := by decide
theorem test_illFormed_idl : (Source.startRW 0 256 0).wellFormed = false := by decide
theorem test_illFormed_len : (Source.rawN 0 0 256 []).wellFormed = false := by decide
theorem test_illFormed_address : (Source.startFN 65536).wellFormed = false := by decide
theorem test_illFormed_addressW : (Source.frameW 65536 []).wellFormed = false := by decide
theorem test_illFormed_b : (Source.data 256).wellFormed = false := by decide
theorem test_illFormed_word : (Source.rawWord 4294967296).wellFormed = false := by decide
theorem test_illFormed_hexOdd : (Source.frameN 0x2e4 ['f', '8', '0']).wellFormed = false := by decide
theorem test_illFormed_hexDigit : (Source.bytes ['f', '8', 'z', 'z']).wellFormed = false := by decide
theorem test_wellFormed_limits : (Source.rawW 255 255 255 ['f', 'F']).wellFormed = true := by decide

/-! ## Hex strings and lines of text (30_encoding R102 to R104; 95_test_vectors X10) -/

theorem test_hex_bytes : hexDecode "f8000000e3".toList = some [0xF8, 0, 0, 0, 0xE3] := by decide
theorem test_hex_upper : hexDecode "F8000000E3".toList = some [0xF8, 0, 0, 0, 0xE3] := by decide
theorem test_hex_empty : hexDecode "".toList = some [] := by decide
theorem test_hex_odd : hexDecode "f80".toList = none := by decide
theorem test_hex_prefix : hexDecode "0xf8".toList = none := by decide
theorem test_hex_blank : hexDecode "f8 00".toList = none := by decide
theorem test_hex_encode : hexEncode [0x00, 0x0A, 0xFF] = "000aff".toList := by decide

/-- The words of a line, none where it is refused. -/
def lineWords (text : String) : Option (List Word) :=
  match assembleLine text.toList with
  | .ok ws => some ws
  | .error _ => none

theorem test_line_startRN : lineWords "STARTR.N 0x02, 0xe4, 0x05 ; X1" = some [0x1002E405] := by decide
theorem test_line_end : lineWords "END" = some [0x40000000] := by decide
theorem test_line_comment : lineWords "; nothing" = some [] := by decide
theorem test_line_frame : lineWords "FRAME.N 740, \"f8e3\"" = some [0x200002E4, 0x300000F8, 0x300000E3, 0x40000000] := by
  decide
theorem test_line_range : lineWords "DATA 256" = none := by decide
theorem test_line_unknown : lineWords "STARTX 1" = none := by decide

/-! ## One step of each command -/

/-- The registers of a next state. -/
def after (o : Host.Outcome State Fault Refusal) : Option Regs :=
  match o with
  | .next t => some t.regs
  | .fault _ => none
  | .refused _ => none

/-- An open raw transaction. -/
def rawState (v : Variant) (cnt acc8 : Byte) (accw : Wide) : State :=
  { State.reset with regs := { Regs.zero with phase := .active, var := v, cnt := cnt, acc8 := acc8, accw := accw } }

/-- An open frame transaction for the identifier 0x02e4. -/
def frameState (v : Variant) (cnt acc8 : Byte) (accw : Wide) (trail : Word) : State :=
  { State.reset with
    regs := { Regs.zero with
      phase := .active, var := v, layer := .frame, idh := 0x02, idl := 0xE4, cnt := cnt, acc8 := acc8, accw := accw,
      trail := trail } }

/-- A state in another phase. -/
def inPhase (p : Phase) (e : ErrCode) (s : State) : State := { s with regs := { s.regs with phase := p, err := e } }

/-- S1: the narrow header wraps, 765 mod 256. -/
theorem test_startRN_wraps : (after (exec (.startRN 0xFF 0xFF 0xFF) State.reset)).map (fun r => (r.acc8, r.accw)) =
    some (0xFD, 0) := by decide
/-- S10: a start in `DONE` zeroes the unselected accumulator and `TRAIL`. -/
theorem test_startRN_discards : (after (exec (.startRN 0x01 0x02 0x03)
    (inPhase .done .none (frameState .wide 8 0 0x180 0x4D2AC577)))).map (fun r => (r.acc8, r.accw, r.trail, r.len)) =
    some (0x06, 0, 0, 0x03) := by decide
/-- S2: the wide header does not wrap. -/
theorem test_startRW_exact : (after (exec (.startRW 0xFF 0xFF 0xFF) State.reset)).map (fun r => (r.acc8, r.accw)) =
    some (0, 0x2FD) := by decide
/-- S5: the largest identifier, 510 mod 256, and `LEN` is 0. -/
theorem test_startFN_largest : (after (exec (.startFN 0xFFFF) State.reset)).map (fun r => (r.acc8, r.len, r.layer)) =
    some (0xFE, 0, .frame) := by decide
/-- F10: a start in `ACTIVE` faults and keeps the sum. -/
theorem test_startFN_active : (after (exec (.startFN 0x0000) (frameState .narrow 2 0xDE 0 0))).map
    (fun r => (r.phase, r.err, r.acc8)) = some (.fault, .seq, 0xDE) := by decide
/-- S9: the identifier 0x0190 splits to 0x01 and 0x90. -/
theorem test_startFW_split : (after (exec (.startFW 0x0190) State.reset)).map (fun r => (r.idh, r.idl, r.accw)) =
    some (0x01, 0x90, 0x91) := by decide
/-- S12: a start in `FAULT` is ignored. -/
theorem test_startRN_fault : (after (exec (.startRN 1 2 3) (inPhase .fault .short (frameState .narrow 0 0xE6 0 0)))).map
    (fun r => (r.phase, r.err, r.acc8)) = some (.fault, .short, 0xE6) := by decide

/-- D2: the wide sum carries. -/
theorem test_data_raw_wide : (after (exec (.data 0x01) (rawState .wide 0 0 0xFF))).map (fun r => (r.accw, r.cnt)) =
    some (0x100, 1) := by decide
/-- D8: the fifth byte of a wide frame evicts and adds the first. -/
theorem test_data_frame_wide : (after (exec (.data 0x4D) (frameState .wide 4 0 0xE6 0x92000000))).map
    (fun r => (r.accw, r.trail)) = some (0x178, 0x0000004D) := by decide
/-- E6: a wide frame of exactly four bytes. -/
theorem test_end_frame_wide : (after (exec .end_ (frameState .wide 4 0 0xE6 0x01020304))).map
    (fun r => (r.phase, r.accw, r.len)) = some (.done, 0xEA, 4) := by decide
/-- E7: three bytes are too short. -/
theorem test_end_short : (after (exec .end_ (frameState .wide 3 0 0xE6 0x00010203))).map
    (fun r => (r.phase, r.err, r.len)) = some (.fault, .short, 0) := by decide
/-- F6: `CLR` in `FAULT` returns to the reset state. -/
theorem test_clr_fault : after (exec .clr (inPhase .fault .short (frameState .narrow 0 0xE6 0 0))) = some Regs.zero := by
  decide

/-- F7: an illegal word in `ACTIVE`. -/
theorem test_step_illegal : (after (step ((frameState .narrow 2 0xDE 0 0).presentFirst 0x60000000))).map
    (fun r => (r.phase, r.err, r.acc8)) = some (.fault, .illegal, 0xDE) := by decide
/-- F4: an illegal word in `FAULT` is ignored. -/
theorem test_step_illegal_fault : (after (step ((inPhase .fault .short (frameState .narrow 0 0xE6 0 0)).presentFirst 0))).map
    (fun r => (r.phase, r.err)) = some (.fault, .short) := by decide
/-- 60_exceptions R236: reset overrides the command of its step. -/
theorem test_step_reset : after (step ((rawState .wide 3 0 0x100).withInputs [.ofReset true 0x30000001])) =
    some Regs.zero := by decide
/-- Withdrawn `cmd_valid`: nothing happens (20_memory R62). -/
theorem test_step_quiet : (after (step ((rawState .wide 3 0 0x100).withInputs [⟨false, false, 0x30000001⟩]))).map
    (fun r => (r.cnt, r.accw)) = some (3, 0x100) := by decide
/-- `withFetchWord` presents the word to the very next step. -/
theorem test_withFetchWord : (after (step (State.reset.withFetchWord 32 0x2000FFFF))).map (fun r => (r.acc8, r.layer)) =
    some (0xFE, .frame) := by decide

/-- X7: `status` of the finished wide frame is 0x0862. -/
theorem test_status : status (inPhase .done .none (frameState .wide 8 0 0x180 0x4D2AC577)).regs = 0x0862 := by decide
/-- X1: the canonical narrow fixture. -/
theorem test_narrow : narrow 0x02 0xE4 0x05 [0xF8, 0, 0, 0] = 0xE3 := by decide
/-- X3: the adapter on the frame whose last byte is 0. -/
theorem test_fromFrame : fromFrame 0x02E4 [0xF8, 0, 0, 0, 0] = some 0xE3 := by decide
/-- X7: the adapter's sum and the trailing field of the wide fixture. -/
theorem test_fromFrameWide : fromFrameWide 0x02E4 [0x92, 0, 0, 0, 0x4D, 0x2A, 0xC5, 0x77] = some 0x180 := by decide
theorem test_trailOf : trailOf .wide [0x92, 0, 0, 0, 0x4D, 0x2A, 0xC5, 0x77] = some 0x4D2AC577 := by decide

/-! ## Witnesses: states and operands that meet the hypotheses of each statement -/

/-- The largest configuration, `MAXLEN = 255`. -/
def largest : Config := { maxLenAbove8 := 247 }

theorem witness_maxLen : State.reset.cfg.maxLen = 8 ∧ largest.maxLen = 255 := by decide

theorem witness_EncodeDecodeRoundTrip : decode 0x300000FF = .instr (.data 0xFF) := by decide

theorem witness_IllegalWordsExactly : (∃ why, decode 0x12000000 = .illegal why) ∧ State.reset.regs.phase ≠ .fault ∧
    (inPhase .fault .long State.reset).regs.phase = .fault := by
  exact ⟨⟨.startBits, by decide⟩, by decide, by decide⟩

/-- For `StartRawNarrowOpens`, `StartRawWideOpens`, `StartFrameNarrowOpens`, `StartFrameWideOpens`: each phase. -/
theorem witness_StartOpens : State.reset.regs.phase = .idle ∧ (inPhase .done .none State.reset).regs.phase = .done ∧
    (rawState .narrow 0 0 0).regs.phase = .active ∧ (inPhase .fault .seq State.reset).regs.phase = .fault := by decide

theorem witness_StartPhasePrecondition : isStart (.startRN 0 0 0) = true ∧ isStart (.startRW 0 0 0) = true ∧
    isStart (.startFN 0) = true ∧ isStart (.startFW 0) = true ∧ State.reset.regs.phase = .idle ∧
    (inPhase .done .none State.reset).regs.phase = .done ∧ (rawState .narrow 0 0 0).regs.phase = .active ∧
    (inPhase .fault .seq State.reset).regs.phase = .fault := by decide

/-- Each clause of `DataTakesByte` outside `ACTIVE`, and at the count where `LONG` begins. -/
theorem witness_DataTakesByte : State.reset.regs.phase = .idle ∧ (inPhase .done .none State.reset).regs.phase = .done ∧
    (inPhase .fault .seq State.reset).regs.phase = .fault ∧
    ((rawState .narrow 8 0 0).regs.phase = .active ∧
      (rawState .narrow 8 0 0).regs.cnt.toNat = (rawState .narrow 8 0 0).cfg.maxLen) ∧
    ((rawState .narrow 7 0 0).regs.phase = .active ∧ (rawState .narrow 7 0 0).regs.layer = .raw ∧
      (rawState .narrow 7 0 0).regs.cnt.toNat ≠ (rawState .narrow 7 0 0).cfg.maxLen) := by decide
/-- The frame clauses of `DataTakesByte` on both sides of the trim count, in both variants. -/
theorem witness_DataTakesByte_frame : ∀ v : Variant, ∀ c ∈ [0, v.trimCount - 1, v.trimCount],
    let r := (frameState v (BitVec.ofNat 8 c) 0 0 0).regs
    r.phase = .active ∧ r.layer = .frame ∧ r.cnt.toNat ≠ State.reset.cfg.maxLen ∧ r.var = v ∧ r.cnt.toNat = c := by
  intro v; cases v <;> decide

theorem witness_EndClosesTransaction : State.reset.regs.phase = .idle ∧
    (inPhase .done .none State.reset).regs.phase = .done ∧ (inPhase .fault .seq State.reset).regs.phase = .fault ∧
    ((rawState .wide 0 0 0).regs.phase = .active ∧ (rawState .wide 0 0 0).regs.layer = .raw) := by decide
/-- The frame clauses of `EndClosesTransaction`: one byte short, and exactly enough. -/
theorem witness_EndClosesTransaction_frame :
    ((frameState .narrow 0 0 0 0).regs.phase = .active ∧ (frameState .narrow 0 0 0 0).regs.layer = .frame ∧
      (frameState .narrow 0 0 0 0).regs.cnt.toNat < (frameState .narrow 0 0 0 0).regs.var.trimCount) ∧
    (frameState .narrow 1 0 0 0).regs.var.trimCount ≤ (frameState .narrow 1 0 0 0).regs.cnt.toNat ∧
    (frameState .wide 3 0 0 0).regs.cnt.toNat < (frameState .wide 3 0 0 0).regs.var.trimCount ∧
    (frameState .wide 4 0 0 0).regs.var.trimCount ≤ (frameState .wide 4 0 0 0).regs.cnt.toNat := by decide

theorem witness_ClrReturnsToReset : (0x50000001 : Word).toNat / 2 ^ 28 = 5 ∧ (0x50000001 : Word).toNat % 2 ^ 28 ≠ 0 ∧
    (inPhase .fault .seq State.reset).regs.phase = .fault := by decide

/-- The state before which the host presents one word. -/
def presented (w : Word) : State := State.reset.presentFirst w

theorem witness_StepRunsDecodedCommand : (presented 0x2000FFFF).inputs = PortIn.ofWord 0x2000FFFF :: [] ∧
    (PortIn.ofWord 0x2000FFFF).rst = false ∧ (PortIn.ofWord 0x2000FFFF).cmdValid = true ∧
    decode (PortIn.ofWord 0x2000FFFF).cmd = .instr (.startFN 0xFFFF) := by decide

theorem witness_ClockEdgeActs : (presented 0x60000000).inputs = PortIn.ofWord 0x60000000 :: [] ∧
    (PortIn.ofReset true 0x30000000).rst = true ∧
    ((⟨false, false, 0⟩ : PortIn).rst = false ∧ (⟨false, false, 0⟩ : PortIn).cmdValid = false) ∧
    ((PortIn.ofWord 0x60000000).rst = false ∧ (PortIn.ofWord 0x60000000).cmdValid = true ∧
      decode (PortIn.ofWord 0x60000000).cmd = .illegal .opcode) ∧
    decode (PortIn.ofWord 0x40000000).cmd = .instr .end_ := by decide

theorem witness_NothingPresentedNothingChanges : State.reset.inputs = [] := by decide

/-- Each clause of `PriorityOfChecks`. -/
theorem witness_PriorityOfChecks : (inPhase .fault .seq State.reset).regs.phase = .fault ∧
    State.reset.regs.phase ≠ .fault ∧ (∃ why, decode 0x30000100 = .illegal why) ∧ decode 0x50000000 = .instr .clr ∧
    decode 0x30000020 = .instr (.data 0x20) ∧ Instr.data 0x20 ≠ .clr ∧
    (rawState .narrow 8 0x30 0).regs.cnt.toNat = (rawState .narrow 8 0x30 0).cfg.maxLen ∧
    decode 0x40000000 = .instr .end_ ∧
    (frameState .wide 3 0 0xE6 0).regs.cnt.toNat < (frameState .wide 3 0 0xE6 0).regs.var.trimCount := by
  exact ⟨by decide, by decide, ⟨.dataBits, by decide⟩, by decide, by decide, by decide, by decide, by decide, by decide⟩

/-- Each code of `FaultCauses` is left by some word presented outside `FAULT`. -/
theorem witness_FaultCauses :
    (after (step ((frameState .wide 3 0 0xE6 0).presentFirst 0x40000000))).map (fun r => (r.phase, r.err)) =
      some (.fault, .short) ∧
    (after (step ((rawState .narrow 8 0x30 0).presentFirst 0x30000020))).map (fun r => (r.phase, r.err)) =
      some (.fault, .long) ∧
    (after (step ((rawState .narrow 8 0x30 0).presentFirst 0x10000000))).map (fun r => (r.phase, r.err)) =
      some (.fault, .seq) ∧
    (after (step (presented 0xFFFFFFFF))).map (fun r => (r.phase, r.err)) = some (.fault, .illegal) := by decide

theorem witness_FaultEntryIsPrecise : ∃ t, (presented 0x30000055).regs.phase ≠ .fault ∧
    step (presented 0x30000055) = .next t ∧ t.regs.phase = .fault := ⟨_, by decide, rfl, by decide⟩

theorem witness_FaultIsSticky : (inPhase .fault .short State.reset).regs.phase = .fault ∧
    (0x50000001 : Word) ≠ 0x50000000 := by decide

theorem witness_OnlyClearOrResetLeavesFault : ∃ t,
    ((inPhase .fault .short State.reset).presentFirst 0x50000000).regs.phase = .fault ∧
    step ((inPhase .fault .short State.reset).presentFirst 0x50000000) = .next t ∧
    t.regs ≠ ((inPhase .fault .short State.reset).presentFirst 0x50000000).regs := ⟨_, by decide, rfl, by decide⟩

theorem witness_FaultSwallowsWhatFollows : (inPhase .fault .short State.reset).regs.phase = .fault ∧
    ∀ w ∈ [0x200002E4, 0x30000001, (0x40000000 : Word)], w ≠ 0x50000000 := ⟨by decide, by simp⟩

theorem witness_StepKeepsRegisterInvariants : ∃ t, ((rawState .wide 1 0 0x100).presentFirst 0x300000FF).Inv ∧
    step ((rawState .wide 1 0 0x100).presentFirst 0x300000FF) = .next t := ⟨_, by decide, rfl⟩

theorem witness_ReachableRegisterInvariants : ∃ t, Host.Core.run Sys2Proof.core 1
    { State.reset with cfg := largest, inputs := [PortIn.ofWord 0x11FFFFFF] } = .next t := ⟨_, rfl⟩

/-- D8's state: four bytes of a wide frame are in the delay line. -/
theorem witness_StepKeepsPartialSum : ∃ t, ((frameState .wide 4 0 0xE6 0x92000000).presentFirst 0x3000004D).Inv ∧
    ((frameState .wide 4 0 0xE6 0x92000000).presentFirst 0x3000004D).PartialSum ∧
    step ((frameState .wide 4 0 0xE6 0x92000000).presentFirst 0x3000004D) = .next t :=
  ⟨_, by decide, fun _ => ⟨[0x92, 0, 0, 0], by unfold Regs.PartialSumOf; decide⟩, rfl⟩

/-- E6's state: `END` closes a wide frame. -/
theorem witness_StepKeepsResultSound : ∃ t, ((frameState .wide 4 0 0xE6 0x01020304).presentFirst 0x40000000).Inv ∧
    ((frameState .wide 4 0 0xE6 0x01020304).presentFirst 0x40000000).PartialSum ∧
    ((frameState .wide 4 0 0xE6 0x01020304).presentFirst 0x40000000).ResultSound ∧
    step ((frameState .wide 4 0 0xE6 0x01020304).presentFirst 0x40000000) = .next t :=
  ⟨_, by decide, fun _ => ⟨[1, 2, 3, 4], by unfold Regs.PartialSumOf; decide⟩, fun h => absurd h (by decide), rfl⟩

/-- X7's final registers are a finished result. -/
theorem witness_ResultSound : ∃ d,
    { (inPhase .done .none (frameState .wide 8 0 0x180 0x4D2AC577)).regs with len := 8 }.ResultOf d :=
  ⟨[0x92, 0, 0, 0, 0x4D, 0x2A, 0xC5, 0x77], by unfold Regs.ResultOf; decide⟩

/-- A state after a wide frame, as the state that differs from reset in every register a start command overwrites. -/
def finished : State := inPhase .done .none (frameState .wide 8 0 0x180 0x4D2AC577)

theorem witness_NoStateCrossesTransaction : isStart (.startRN 1 2 3) = true ∧ State.reset.regs.phase = .idle ∧
    finished.regs.phase = .done ∧ State.reset.regs.ErrIffFault ∧ finished.regs.ErrIffFault ∧
    State.reset.cfg = finished.cfg ∧ State.reset.inputs = finished.inputs := by decide

theorem witness_WritersOfEachRegister : ∃ t, exec (.data 0x4D) (frameState .wide 4 0 0xE6 0x92000000) = .next t ∧
    isStart (.data 0x4D) = false ∧ Instr.data 0x4D ≠ .clr ∧ t.regs.accw ≠ 0xE6 ∧ t.regs.trail ≠ 0x92000000 :=
  ⟨_, rfl, by decide, by decide, by decide, by decide⟩

/-- For `ResetLeavesEveryRegisterZero` and `OutputsAfterReset`. -/
theorem witness_Reset : (PortIn.ofReset true 0xFFFFFFFF).rst = true ∧
    (finished.withInputs [PortIn.ofReset true 0xFFFFFFFF]).inputs = PortIn.ofReset true 0xFFFFFFFF :: [] := by decide

theorem witness_HostReadsResultOnlyWhenDone : (finished.regs.phase = .done ∧ finished.regs.var = .wide) ∧
    ((inPhase .done .none (frameState .narrow 5 0xE3 0 0xE3)).regs.phase = .done ∧
      (inPhase .done .none (frameState .narrow 5 0xE3 0 0xE3)).regs.var = .narrow) ∧
    (inPhase .fault .long finished).regs.phase = .fault ∧ State.reset.regs.phase = .idle ∧
    (rawState .wide 0 0 0).regs.phase = .active := by decide

/-- For `RawNarrowTransaction` and `RawWideTransaction`: no payload, and a payload of `MAXLEN` bytes. -/
theorem witness_RawTransactions : State.reset.regs.phase = .idle ∧ finished.regs.phase = .done ∧
    State.reset.regs.ErrIffFault ∧ finished.regs.ErrIffFault ∧ ([] : List Byte).length ≤ State.reset.cfg.maxLen ∧
    ([0, 0, 0, 0, 0, 0, 0, 0] : List Byte).length ≤ State.reset.cfg.maxLen := by decide

theorem witness_PartialSumAfterData : isStart (.startFW 0x02E4) = true ∧ State.reset.regs.phase = .idle ∧
    finished.regs.phase = .done ∧ ([0, 0, 0, 0, 0, 0, 0, 0] : List Byte).length ≤ State.reset.cfg.maxLen := by decide

/-- For `FrameNarrowTransaction` and `FrameWideTransaction`: the least and the largest payload. -/
theorem witness_FrameTransactions : State.reset.regs.phase = .idle ∧ State.reset.regs.ErrIffFault ∧
    1 ≤ ([0] : List Byte).length ∧ 4 ≤ ([1, 2, 3, 4] : List Byte).length ∧
    ([1, 2, 3, 4] : List Byte).length ≤ State.reset.cfg.maxLen ∧
    ([0, 0, 0, 0, 0, 0, 0, 0] : List Byte).length ≤ State.reset.cfg.maxLen := by decide

theorem witness_ShortFrameFaults : State.reset.regs.phase = .idle ∧ State.reset.regs.ErrIffFault ∧
    ([] : List Byte).length < 1 ∧ ([1, 2, 3] : List Byte).length < 4 := by decide

theorem witness_LongPayloadFaults : isStart (.startFW 0x02E4) = true ∧ State.reset.regs.phase = .idle ∧
    State.reset.cfg.maxLen < ([0x92, 0, 0, 0, 0x4D, 0x2A, 0xC5, 0x77, 0x01] : List Byte).length := by decide

theorem witness_InterruptedTransaction : isStart (.startFN 0x02E4) = true ∧ State.reset.regs.phase = .idle ∧
    ([0xF8] : List Byte).length ≤ State.reset.cfg.maxLen ∧ (∀ x ∈ [(0x40000000 : Word)], x ≠ 0x50000000) ∧
    decode 0x60000000 = .illegal .opcode ∧ decode 0x10000000 = .instr (.startRN 0 0 0) ∧
    isStart (.startRN 0 0 0) = true ∧ decode 0x40000000 = .instr .end_ ∧ decode 0x30000001 = .instr (.data 1) :=
  ⟨by decide, by decide, by decide, by simp, by decide⟩

theorem witness_TransactionIndependentOfHistory : isStart (.startFN 0x02E4) = true ∧ State.reset.regs.phase = .idle ∧
    finished.regs.phase = .done ∧ State.reset.regs.ErrIffFault ∧ finished.regs.ErrIffFault ∧
    State.reset.cfg = finished.cfg := by decide

theorem witness_BackToBackTransactions : isStart (.startRW 1 2 3) = true ∧ finished.regs.phase = .done ∧
    (inPhase .fault .long finished).regs.phase = .fault := by decide

theorem witness_LayersAgree : State.reset.regs.phase = .idle ∧
    ([0xF8, 0, 0, 0, 0xE3] : List Byte).length ≤ State.reset.cfg.maxLen ∧ 1 ≤ ([0] : List Byte).length ∧
    4 ≤ ([0xF8, 0, 0, 0, 0xE3] : List Byte).length := by decide

theorem witness_DelayLineSumsTheSlice : State.reset.regs.phase = .idle ∧
    ([0xF8, 0] : List Byte).length ≤ State.reset.cfg.maxLen ∧ Variant.narrow.trimCount ≤ ([0xF8, 0] : List Byte).length ∧
    Variant.wide.trimCount ≤ ([1, 2, 3, 4] : List Byte).length := by decide

theorem witness_WideSumBounded : wide 0xFF 0xFF 0xFF [0xFF] = some 0x3FC ∧ ([0xFF] : List Byte).length ≤ 1 ∧
    ([0xFF] : List Byte).length ≤ largest.maxLen ∧ fromFrameWide 0xFFFF [1, 2, 3, 4] = some 0x202 := by decide

theorem witness_NarrowIsWideModulo256 : wide 0x02 0xE4 0x05 [0xF8, 0, 0, 0] = some 0x1E3 := by decide

theorem witness_TrimmedBytesDoNotMatter :
    (([0xF8, 0, 0, 0, 0xE3] : List Byte).length = ([0xF8, 0, 0, 0, 0] : List Byte).length ∧
      ([0xF8, 0, 0, 0, 0xE3] : List Byte).take 4 = ([0xF8, 0, 0, 0, 0] : List Byte).take 4) ∧
    ([0x92, 0, 0, 0, 0x4D, 0x2A, 0xC5, 0x77] : List Byte).take 4 = ([0x92, 0, 0, 0, 1, 2, 3, 4] : List Byte).take 4 := by
  decide

theorem witness_SumIsOrderFree : List.Perm ([0xF8, 0] : List Byte) [0, 0xF8] := List.Perm.swap _ _ _

theorem witness_HexStringsRoundTrip : ['f', '8', '0'].length % 2 = 1 ∧ hexDigit 'z' = none ∧
    (['f', '8'].length % 2 = 0 ∧ ∀ c ∈ ['f', '8'], hexDigit c ≠ none) :=
  ⟨by decide, by decide, by decide, by simp [hexDigit]⟩

theorem witness_AssembledWordsAreCommands : (Source.frameN 0x2e4 ['f', '8']).wellFormed = true ∧
    assemble (.data 0x55) = .ok [0x30000055] ∧ ∀ w, Source.data 0x55 ≠ .rawWord w := by
  exact ⟨by decide, by decide, fun _ h => by cases h⟩

end Sys2Proof.Tests
end

section
/-!
SUPPORT. The decoder reads every command back from its word (30_encoding R96, R102).
-/

namespace Sys2Proof

theorem byteAt_eq {w : Word} {lo : Nat} {b : Byte} (h : w.toNat / 2 ^ lo % 256 = b.toNat) : byteAt w lo = b :=
  BitVec.eq_of_toNat_eq ((byteAt_toNat w lo).trans h)

theorem identAt_eq {w : Word} {a : Ident} (h : w.toNat % 65536 = a.toNat) : identAt w = a :=
  BitVec.eq_of_toNat_eq ((identAt_toNat w).trans h)

/-- A word with the fields of format `SR` (R92, R93). -/
theorem decode_startRaw_word {w : Word} {v : Nat} {idh idl len : Byte} (hv : v < 2)
    (h : w.toNat = 2 ^ 28 + v * 2 ^ 24 + idh.toNat * 2 ^ 16 + idl.toNat * 2 ^ 8 + len.toNat) :
    decode w = .instr (if v = 0 then .startRN idh idl len else .startRW idh idl len) := by
  have := idh.isLt; have := idl.isLt; have := len.isLt
  have hop : bits w 31 28 = 1 := by simp only [bits_eq]; omega
  have hz : bits w 27 25 = 0 := by simp only [bits_eq]; omega
  have hV : bits w 24 24 = v := by simp only [bits_eq]; omega
  have h16 : byteAt w 16 = idh := byteAt_eq (by omega)
  have h8 : byteAt w 8 = idl := byteAt_eq (by omega)
  have h0 : byteAt w 0 = len := byteAt_eq (by omega)
  simp [decode, hop, decodeStartRaw, hz, hV, h16, h8, h0, apply_ite Decoded.instr]

/-- A word with the fields of format `SF` (R93, R94). -/
theorem decode_startFrame_word {w : Word} {v : Nat} {address : Ident} (hv : v < 2)
    (h : w.toNat = 2 * 2 ^ 28 + v * 2 ^ 24 + address.toNat) :
    decode w = .instr (if v = 0 then .startFN address else .startFW address) := by
  have := address.isLt
  have hop : bits w 31 28 = 2 := by simp only [bits_eq]; omega
  have hz : bits w 27 25 = 0 := by simp only [bits_eq]; omega
  have hm : bits w 23 16 = 0 := by simp only [bits_eq]; omega
  have hV : bits w 24 24 = v := by simp only [bits_eq]; omega
  have ha : identAt w = address := identAt_eq (by omega)
  simp [decode, hop, decodeStartFrame, hz, hm, hV, ha, apply_ite Decoded.instr]

/-- A word with the fields of format `D` (R95). -/
theorem decode_data_word {w : Word} {b : Byte} (h : w.toNat = 3 * 2 ^ 28 + b.toNat) :
    decode w = .instr (.data b) := by
  have := b.isLt
  have hop : bits w 31 28 = 3 := by simp only [bits_eq]; omega
  have hz : bits w 27 8 = 0 := by simp only [bits_eq]; omega
  have hb : byteAt w 0 = b := byteAt_eq (by omega)
  simp [decode, hop, decodeData, hz, hb]

/-- Every command is read back from its word, with every operand (R96, R102). -/
@[simp] theorem decode_encode (i : Instr) : decode (encode i) = .instr i := by
  cases i with
  | startRN idh idl len =>
    exact decode_startRaw_word (v := 0) (by omega) (by simp only [encode, BitVec.toNat_ofNat]; omega)
  | startRW idh idl len =>
    exact decode_startRaw_word (v := 1) (by omega) (by simp only [encode, BitVec.toNat_ofNat]; omega)
  | startFN address =>
    exact decode_startFrame_word (v := 0) (by omega) (by simp only [encode, BitVec.toNat_ofNat]; omega)
  | startFW address =>
    exact decode_startFrame_word (v := 1) (by omega) (by simp only [encode, BitVec.toNat_ofNat]; omega)
  | data b => exact decode_data_word (by simp only [encode, BitVec.toNat_ofNat]; omega)
  | end_ => decide
  | clr => decide

end Sys2Proof

namespace Sys2Proof.Machine

/-- A step that is presented the word of a command executes that command. -/
theorem step_presentFirst_encode (s : State) (i : Instr) : step (s.presentFirst (encode i)) = exec i s := by
  simp [step]

end Sys2Proof.Machine
end

section
/-!
SUPPORT. What one step does to the registers, said once as a relation between the registers before and after.
-/

namespace Sys2Proof.Machine

/-- The header bytes that enter the sum when a transaction opens: the length byte only in the raw layer
(41_start_commands R150 to R153). -/
def Layer.headerTerms : Layer → Byte → Byte → Byte → List Byte
  | .raw, idh, idl, len => [idh, idl, len]
  | .frame, idh, idl, _ => [idh, idl]

@[simp] theorem Layer.headerTerms_raw (idh idl len : Byte) : Layer.raw.headerTerms idh idl len = [idh, idl, len] := rfl
@[simp] theorem Layer.headerTerms_frame (idh idl len : Byte) : Layer.frame.headerTerms idh idl len = [idh, idl] := rfl

/-- `t` are the registers after a start command accepted with the registers `r`: a fresh transaction whose selected
accumulator is the sum of its header (41_start_commands R150 to R153). -/
structure Regs.Opened (r t : Regs) : Prop where
  phase : t.phase = .active
  err : t.err = r.err
  cnt : t.cnt = 0
  trail : t.trail = 0
  accw_narrow : t.var = .narrow → t.accw = 0
  acc8_wide : t.var = .wide → t.acc8 = 0
  sum : t.Holds (byteSum (t.layer.headerTerms t.idh t.idl t.len))

/-- Everything a step can do to the registers, by what happened at the clock edge. -/
inductive RegStep (c : Config) (r : Regs) : Regs → Prop
  | unchanged : RegStep c r r
  | cleared : RegStep c r Regs.zero
  | faulted (hp : r.phase ≠ .fault) (code : ErrCode) (hc : code ≠ .none) : RegStep c r (r.faulted code)
  | opened {t : Regs} (hp : r.phase = .idle ∨ r.phase = .done) (ht : r.Opened t) : RegStep c r t
  | tookByte (b : Byte) (hp : r.phase = .active) (hc : r.cnt.toNat ≠ c.maxLen) : RegStep c r (r.takeByte b)
  | closedRaw (hp : r.phase = .active) (hl : r.layer = .raw) : RegStep c r { r with phase := .done }
  | closedFrame (hp : r.phase = .active) (hl : r.layer = .frame) (hc : r.var.trimCount ≤ r.cnt.toNat) :
    RegStep c r r.closeFrame

theorem byteSum_headerTerms_le (l : Layer) (idh idl len : Byte) : byteSum (l.headerTerms idh idl len) ≤ 765 := by
  cases l with
  | raw => exact byteSum_le _
  | frame => exact (byteSum_le _).trans (by simp)

/-- Opening with the header terms of its own layer. -/
theorem State.openWith_opened (v : Variant) (l : Layer) (idh idl len : Byte) (s : State) :
    s.regs.Opened (s.openWith v l idh idl len (l.headerTerms idh idl len)).regs := by
  obtain ⟨a, w, h, hn, hw⟩ := State.openWith_spec v l idh idl len (l.headerTerms idh idl len) s
  have hle := byteSum_headerTerms_le l idh idl len
  rw [h, State.withRegs_regs]
  exact
    { phase := rfl, err := rfl, cnt := rfl, trail := rfl
      accw_narrow := fun hv => (hn hv).2
      acc8_wide := fun hv => (hw hv).2
      sum := ⟨fun hv => (hn hv).1, fun hv => (hw hv).1.trans (Nat.mod_eq_of_lt (by omega))⟩ }

/-- A start command is the phase check around opening with the header terms of its own layer. -/
theorem exec_start_header {i : Instr} (h : isStart i = true) :
    ∃ v l idh idl len, ∀ s : State, exec i s =
      .next (s.whenAccepted acceptsStart (State.openWith v l idh idl len (l.headerTerms idh idl len))) := by
  cases i with
  | startRN idh idl len => exact ⟨.narrow, .raw, idh, idl, len, fun _ => rfl⟩
  | startRW idh idl len => exact ⟨.wide, .raw, idh, idl, len, fun _ => rfl⟩
  | startFN a => exact ⟨.narrow, .frame, splitHigh a, splitLow a, 0, fun _ => rfl⟩
  | startFW a => exact ⟨.wide, .frame, splitHigh a, splitLow a, 0, fun _ => rfl⟩
  | data b => cases h
  | end_ => cases h
  | clr => cases h

theorem ne_fault_of_idle_or_done {p : Phase} (h : p = .idle ∨ p = .done) : p ≠ .fault := by
  rintro rfl; simp at h

/-- A start command in a phase that accepts it opens a transaction. -/
theorem exec_start_opens {i : Instr} (hi : isStart i = true) {s : State}
    (hp : s.regs.phase = .idle ∨ s.regs.phase = .done) :
    ∃ t, exec i s = .next t ∧ t.cfg = s.cfg ∧ s.regs.Opened t.regs := by
  obtain ⟨v, l, idh, idl, len, h⟩ := exec_start_header hi
  refine ⟨_, h s, ?_⟩
  rw [State.whenAccepted_accepted (ne_fault_of_idle_or_done hp) (acceptsStart_eq_true.mpr hp)]
  exact ⟨rfl, State.openWith_opened v l idh idl len s⟩

/-- What holds of the registers unchanged, of every fault, and of the rule's own effect, holds after the phase check. -/
theorem State.whenAccepted_regs {Q : Regs → Prop} {acc : Phase → Bool} {f : State → State} {s : State}
    (hunchanged : Q s.regs) (hfaulted : s.regs.phase ≠ .fault → ∀ code ≠ .none, Q (s.regs.faulted code))
    (hrule : acc s.regs.phase = true → Q (f s).regs) : Q (s.whenAccepted acc f).regs := by
  obtain ⟨-, e⟩ | ⟨-, ha, e⟩ | ⟨hf, -, e⟩ := State.whenAccepted_cases acc f s
  · rw [e]; exact hunchanged
  · rw [e]; exact hrule ha
  · rw [e]; exact hfaulted hf .seq (by decide)

theorem State.whenAccepted_regStep {acc : Phase → Bool} {f : State → State} {s : State}
    (h : acc s.regs.phase = true → RegStep s.cfg s.regs (f s).regs) :
    RegStep s.cfg s.regs (s.whenAccepted acc f).regs :=
  State.whenAccepted_regs .unchanged .faulted h

theorem State.dataRule_regStep {s : State} (b : Byte) (hp : s.regs.phase = .active) :
    RegStep s.cfg s.regs (s.dataRule b).regs := by
  obtain ⟨-, e⟩ | ⟨hc, e⟩ := s.dataRule_cases b
  · rw [e]; exact .faulted (by simp [hp]) .long (by decide)
  · rw [e]; exact .tookByte b hp hc

theorem State.endRule_regStep {s : State} (hp : s.regs.phase = .active) : RegStep s.cfg s.regs s.endRule.regs := by
  obtain ⟨hl, e⟩ | ⟨-, -, e⟩ | ⟨hl, hc, e⟩ := s.endRule_cases
  · rw [e]; exact .closedRaw hp hl
  · rw [e]; exact .faulted (by simp [hp]) .short (by decide)
  · rw [e]; exact .closedFrame hp hl hc

/-- Every command acts on the registers as `RegStep` says. -/
theorem exec_regStep {i : Instr} {s t : State} (h : exec i s = .next t) : RegStep s.cfg s.regs t.regs := by
  cases hi : isStart i with
  | true =>
    obtain ⟨v, l, idh, idl, len, hs⟩ := exec_start_header hi
    cases (hs s).symm.trans h
    exact State.whenAccepted_regStep fun ha =>
      .opened (acceptsStart_eq_true.mp ha) (State.openWith_opened v l idh idl len s)
  | false =>
    cases i with
    | data b =>
      cases h
      exact State.whenAccepted_regStep fun ha => State.dataRule_regStep b (acceptsTransfer_eq_true.mp ha)
    | end_ =>
      cases h
      exact State.whenAccepted_regStep fun ha => State.endRule_regStep (acceptsTransfer_eq_true.mp ha)
    | clr => cases h; exact .cleared
    | startRN | startRW | startFN | startFW => cases hi

theorem State.illegalWord_regStep (s : State) : RegStep s.cfg s.regs s.illegalWord.regs := by
  by_cases hp : s.regs.phase = .fault
  · rw [State.illegalWord_fault hp]; exact .unchanged
  · rw [State.illegalWord_of_ne hp]; exact .faulted hp .illegal (by decide)

theorem State.illegalWord_cfg (s : State) : s.illegalWord.cfg = s.cfg := by
  by_cases hp : s.regs.phase = .fault
  · rw [State.illegalWord_fault hp]
  · rw [State.illegalWord_of_ne hp, State.raise_cfg]

/-- Every step acts on the registers as `RegStep` says. -/
theorem step_regStep {s t : State} (h : step s = .next t) : RegStep s.cfg s.regs t.regs := by
  obtain ⟨-, e⟩ | ⟨p, rest, -, ⟨-, e⟩ | ⟨-, e⟩ | ⟨cw, i, -, -, e⟩ | ⟨cw, why, -, -, e⟩⟩ := step_cases s
  · cases e.symm.trans h; exact .unchanged
  · cases e.symm.trans h; exact .cleared
  · cases e.symm.trans h; exact .unchanged
  · exact exec_regStep (s := s.withInputs rest) (e.symm.trans h)
  · cases e.symm.trans h; exact State.illegalWord_regStep (s.withInputs rest)

/-- No step changes the configuration (70_reset_and_hazards R264). -/
theorem step_cfg {s t : State} (h : step s = .next t) : t.cfg = s.cfg := by
  obtain ⟨-, e⟩ | ⟨p, rest, -, ⟨-, e⟩ | ⟨-, e⟩ | ⟨cw, i, -, -, e⟩ | ⟨cw, why, -, -, e⟩⟩ := step_cases s
  · cases e.symm.trans h; rfl
  · cases e.symm.trans h; rfl
  · cases e.symm.trans h; rfl
  · obtain ⟨u, hu, hc, -⟩ := exec_next i (s.withInputs rest)
    cases (e.trans hu).symm.trans h; exact hc
  · cases e.symm.trans h
    exact State.illegalWord_cfg (s.withInputs rest)

/-- A property that every step keeps holds at the end of every run that begins with it. -/
theorem run_keeps {P : State → Prop} (hP : ∀ s t, P s → step s = .next t → P t) (k : Nat) {s t : State} (hs : P s)
    (h : Host.Core.run Sys2Proof.core k s = .next t) : P t := by
  induction k generalizing s with
  | zero => cases h; exact hs
  | succ k ih =>
    cases hstep : Sys2Proof.core.step s with
    | next u => exact ih (hP s u hs hstep) (by simpa only [Host.Core.run, hstep] using h)
    | fault e => nomatch e
    | refused e => simp [Host.Core.run, hstep] at h

end Sys2Proof.Machine
end

section
/-!
PROOFS. The register invariants of 10_state R36 and the bound its clause (g) rests on, kept by every step and so true
of every reachable state.
-/

namespace Sys2Proof.Machine

theorem ErrCode.code_le (e : ErrCode) : e.code ≤ 4 := by cases e <;> decide

theorem Regs.ErrIffFault.err_eq_none {r : Regs} (h : r.ErrIffFault) (hp : r.phase ≠ .fault) : r.err = .none :=
  not_not.mp (mt h.mp hp)

theorem Regs.errIffFault_of_ne_fault {r : Regs} (he : r.err = .none) (hp : r.phase ≠ .fault) : r.ErrIffFault :=
  ⟨fun h => absurd he h, fun h => absurd h hp⟩

/-- The invariant of `State.Inv`, of the registers alone. -/
abbrev Regs.Inv (c : Config) (r : Regs) : Prop := r.Invariants c ∧ r.WideBounded

/-- Clause (g) of R36 and the bound on `ERR` follow from the others: 255·(3 + 255) = 65790. -/
theorem Regs.inv_of_bounds {c : Config} {r : Regs} (hcnt : r.cnt.toNat ≤ c.maxLen) (herr : r.ErrIffFault)
    (hsel : (r.var = .narrow → r.accw = 0) ∧ (r.var = .wide → r.acc8 = 0)) (hraw : r.layer = .raw → r.trail = 0)
    (hnarrow : r.var = .narrow → r.trail.toNat < 2 ^ 8) (hidle : r.phase = .idle → r = Regs.zero)
    (hwide : r.WideBounded) : r.Inv c := by
  have hmax := c.maxLen_bounds
  have hacc := hwide.1
  exact ⟨⟨hcnt, ⟨herr, r.err.code_le⟩, hsel, hraw, hnarrow, hidle, by omega⟩, hwide⟩

/-! ## What adding and taking a byte do to the accumulators -/

theorem Regs.addByte_accw_le (r : Regs) (x : Byte) : (r.addByte x).accw.toNat ≤ r.accw.toNat + 255 := by
  have := x.isLt
  cases hv : r.var with
  | narrow => rw [Regs.addByte_accw_narrow hv]; omega
  | wide => rw [Regs.addByte_accw_wide hv]; omega

/-- The accumulators after `DATA`: those with the summed byte added, or, while a frame's delay line fills, unchanged. -/
theorem Regs.takeByte_acc_cases (r : Regs) (b : Byte) :
    (∃ x, (r.takeByte b).acc8 = (r.addByte x).acc8 ∧ (r.takeByte b).accw = (r.addByte x).accw) ∨
    ((r.takeByte b).acc8 = r.acc8 ∧ (r.takeByte b).accw = r.accw) := by
  cases h : summedByte r b with
  | some x => exact .inl ⟨x, Regs.takeByte_acc_some h⟩
  | none => exact .inr (Regs.takeByte_acc_none h)

theorem Regs.takeByte_accw_le (r : Regs) (b : Byte) : (r.takeByte b).accw.toNat ≤ r.accw.toNat + 255 := by
  obtain ⟨x, -, h⟩ | ⟨-, h⟩ := r.takeByte_acc_cases b
  · rw [h]; exact r.addByte_accw_le x
  · rw [h]; omega

theorem Regs.takeByte_accw_narrow {r : Regs} (hv : r.var = .narrow) (b : Byte) : (r.takeByte b).accw = r.accw := by
  obtain ⟨x, -, h⟩ | ⟨-, h⟩ := r.takeByte_acc_cases b
  · rw [h, Regs.addByte_accw_narrow hv]
  · exact h

theorem Regs.takeByte_acc8_wide {r : Regs} (hv : r.var = .wide) (b : Byte) : (r.takeByte b).acc8 = r.acc8 := by
  obtain ⟨x, h, -⟩ | ⟨h, -⟩ := r.takeByte_acc_cases b
  · rw [h, Regs.addByte_acc8_wide hv]
  · exact h

/-- The count does not wrap below `MAXLEN`, which is at most 255. -/
theorem toNat_add_one_of_lt {n : Byte} (h : n.toNat < 255) : (n + 1).toNat = n.toNat + 1 :=
  BitVec.toNat_add_of_lt (by have : (1 : Byte).toNat = 1 := rfl; omega)

theorem nextTrail_narrow_lt {r : Regs} (hv : r.var = .narrow) (h : r.trail.toNat < 2 ^ 8) (b : Byte) :
    (nextTrail r b).toNat < 2 ^ 8 := by
  cases hl : r.layer with
  | raw => rwa [nextTrail_raw hl]
  | frame => rw [nextTrail_frame hl, shiftIn_toNat, hv]; exact Nat.mod_lt _ (by decide)

/-! ## Each kind of step keeps the invariant -/

section
variable {c : Config} {r : Regs}

theorem Regs.Inv.err_eq_none (h : r.Inv c) (hp : r.phase ≠ .fault) : r.err = .none := by
  obtain ⟨⟨-, ⟨herr, -⟩, -⟩, -⟩ := h
  exact herr.err_eq_none hp

theorem Regs.zero_inv (c : Config) : Regs.zero.Inv c :=
  Regs.inv_of_bounds (Nat.zero_le _) (by decide) (by decide) (by decide) (by decide) (fun _ => rfl) (by decide)

theorem Regs.Inv.faulted (h : r.Inv c) {code : ErrCode} (hc : code ≠ .none) : (r.faulted code).Inv c := by
  obtain ⟨⟨hcnt, -, hsel, hraw, hnarrow, -, -⟩, hacc, -⟩ := h
  exact Regs.inv_of_bounds hcnt ⟨fun _ => rfl, fun _ => hc⟩ hsel hraw hnarrow nofun ⟨hacc, nofun⟩

theorem Regs.Inv.closedRaw (h : r.Inv c) (hp : r.phase = .active) : Regs.Inv c { r with phase := .done } := by
  have herr := h.err_eq_none (by simp [hp])
  obtain ⟨⟨hcnt, -, hsel, hraw, hnarrow, -, -⟩, hacc, -⟩ := h
  exact Regs.inv_of_bounds hcnt (Regs.errIffFault_of_ne_fault herr nofun) hsel hraw hnarrow nofun ⟨hacc, nofun⟩

/-- A fresh transaction: at most 765 in the raw layer, 510 in the frame layer. -/
theorem Regs.Opened.inv {t : Regs} (h : r.Opened t) (herr : r.err = .none) : t.Inv c := by
  have hsum : t.accw.toNat ≤ byteSum (t.layer.headerTerms t.idh t.idl t.len) := by
    cases hv : t.var with
    | narrow => rw [h.accw_narrow hv]; exact Nat.zero_le _
    | wide => exact (h.sum.2 hv).le
  have hle := byteSum_headerTerms_le t.layer t.idh t.idl t.len
  have herr' : t.ErrIffFault := Regs.errIffFault_of_ne_fault (h.err.trans herr) (by simp [h.phase])
  refine Regs.inv_of_bounds (by simp [h.cnt]) herr' ⟨h.accw_narrow, h.acc8_wide⟩ (fun _ => h.trail) (by simp [h.trail])
    (by simp [h.phase]) ⟨by omega, fun _ hl => ?_⟩
  have := byteSum_le [t.idh, t.idl]
  rw [hl, Layer.headerTerms_frame] at hsum
  simp only [List.length_cons, List.length_nil] at this
  omega

theorem Regs.Inv.takeByte (h : r.Inv c) (hp : r.phase = .active) (hc : r.cnt.toNat ≠ c.maxLen) (b : Byte) :
    (r.takeByte b).Inv c := by
  have herr := h.err_eq_none (by simp [hp])
  obtain ⟨⟨hcnt, -, ⟨hn, hw⟩, hraw, hnarrow, -, -⟩, hacc, hframe⟩ := h
  have hmax := c.maxLen_bounds
  have herr' : (r.takeByte b).ErrIffFault := Regs.errIffFault_of_ne_fault (by simpa using herr) (by simp [hp])
  have hcnt' : (r.takeByte b).cnt.toNat = r.cnt.toNat + 1 := toNat_add_one_of_lt (by omega)
  have hle := r.takeByte_accw_le b
  refine Regs.inv_of_bounds (by omega) herr' ⟨fun hv => ?_, fun hv => ?_⟩ (fun hl => ?_) (fun hv => ?_) (by simp [hp])
    ⟨by omega, fun _ hl => ?_⟩
  · rw [Regs.takeByte_var] at hv; rw [Regs.takeByte_accw_narrow hv, hn hv]
  · rw [Regs.takeByte_var] at hv; rw [Regs.takeByte_acc8_wide hv, hw hv]
  · rw [Regs.takeByte_layer] at hl; rw [Regs.takeByte_trail, nextTrail_raw hl, hraw hl]
  · rw [Regs.takeByte_var] at hv; exact nextTrail_narrow_lt hv (hnarrow hv) b
  · rw [Regs.takeByte_layer] at hl; have := hframe hp hl; omega

/-- Closing a frame adds `CNT`, for which the bound of an open frame leaves room. -/
theorem Regs.Inv.closeFrame (h : r.Inv c) (hp : r.phase = .active) (hl : r.layer = .frame) : r.closeFrame.Inv c := by
  have herr := h.err_eq_none (by simp [hp])
  obtain ⟨⟨hcnt, -, ⟨hn, hw⟩, -, hnarrow, -, -⟩, -, hframe⟩ := h
  have herr' : r.closeFrame.ErrIffFault := Regs.errIffFault_of_ne_fault (by simpa using herr) (by simp)
  have hle := r.addByte_accw_le r.cnt
  have hacc := hframe hp hl
  refine Regs.inv_of_bounds (by simpa using hcnt) herr' ⟨fun hv => ?_, fun hv => ?_⟩ (by simp [hl])
    (by simpa using hnarrow) (by simp) ⟨?_, by simp⟩
  · rw [Regs.closeFrame_var] at hv; rw [Regs.closeFrame_accw, Regs.addByte_accw_narrow hv, hn hv]
  · rw [Regs.closeFrame_var] at hv; rw [Regs.closeFrame_acc8, Regs.addByte_acc8_wide hv, hw hv]
  · rw [Regs.closeFrame_accw, Regs.closeFrame_cnt]; omega

end

theorem RegStep.inv {c : Config} {r t : Regs} (h : RegStep c r t) (hr : r.Inv c) : t.Inv c := by
  cases h with
  | unchanged => exact hr
  | cleared => exact Regs.zero_inv c
  | faulted hp code hc => exact hr.faulted hc
  | opened hp ht => exact ht.inv (hr.err_eq_none (ne_fault_of_idle_or_done hp))
  | tookByte b hp hc => exact hr.takeByte hp hc b
  | closedRaw hp hl => exact hr.closedRaw hp
  | closedFrame hp hl hc => exact hr.closeFrame hp hl

theorem State.Inv.step {s t : State} (hs : s.Inv) (h : step s = .next t) : t.Inv := by
  have := (step_regStep h).inv hs
  rwa [← step_cfg h] at this

theorem reset_inv (c : Config) (ins : List PortIn) : State.Inv { State.reset with cfg := c, inputs := ins } :=
  Regs.zero_inv c

/-- Settles O26: each kind of step that `RegStep` lists keeps the invariant. -/
theorem stepKeepsRegisterInvariants : Obligations.StepKeepsRegisterInvariants := by
  intro s t hs h
  exact hs.step h

/-- Settles O27: the invariant holds at reset and every step keeps it and the configuration. -/
theorem reachableRegisterInvariants : Obligations.ReachableRegisterInvariants := by
  intro c ins k t h
  obtain ⟨⟨⟨hcnt, ⟨herr, hcode⟩, ⟨hn, hw⟩, hraw, hnarrow, hidle, hacc⟩, -⟩, hc⟩ :=
    run_keeps (P := fun s => s.Inv ∧ s.cfg = c) (fun s t hs h => ⟨hs.1.step h, (step_cfg h).trans hs.2⟩) k
      ⟨reset_inv c ins, rfl⟩ h
  exact ⟨hc ▸ hcnt, herr, hcode, hn, hw, hraw, hnarrow, hidle, hacc⟩

end Sys2Proof.Machine
end

section
/-!
PROOFS. The partial sum of an open transaction (10_state R37): the delay line holds the last `T` bytes of the payload and
hands its oldest on to the accumulator.
-/

namespace Sys2Proof.Machine

/-! ## The delay line as the last `T` bytes -/

theorem Variant.trimCount_pos (v : Variant) : 0 < v.trimCount := by cases v <;> decide

theorem two_pow_eight_mul (k : Nat) : 2 ^ (8 * k) = 256 ^ k := pow_mul 2 8 k

/-- The last `T` bytes as their first and the others. -/
theorem lastBytes_eq_cons {v : Variant} {d : List Byte} (h : v.trimCount ≤ d.length) :
    ∃ x xs, lastBytes v.trimCount d = x :: xs ∧ xs.length + 1 = v.trimCount := by
  have hlen : (lastBytes v.trimCount d).length = v.trimCount := by simpa using h
  have hpos := v.trimCount_pos
  cases hd : lastBytes v.trimCount d with
  | nil => rw [hd] at hlen; simp at hlen; omega
  | cons x xs => exact ⟨x, xs, rfl, by simpa [hd] using hlen⟩

/-- Shifting a byte in keeps the line the last `T` bytes, whether it fills or is full. -/
theorem shiftIn_lastBytes {v : Variant} {d : List Byte} {w : Word} (h : w.toNat = bigEndian (lastBytes v.trimCount d))
    (b : Byte) : (shiftIn v w b).toNat = bigEndian (lastBytes v.trimCount (d ++ [b])) := by
  rw [shiftIn_toNat, h, ← bigEndian_snoc, two_pow_eight_mul]
  by_cases hd : d.length < v.trimCount
  · have hlen : (d ++ [b]).length ≤ v.trimCount := by simpa using hd
    rw [lastBytes_of_length_le hd.le, lastBytes_of_length_le hlen]
    exact Nat.mod_eq_of_lt ((bigEndian_lt _).trans_le (Nat.pow_le_pow_right (by omega) hlen))
  · obtain ⟨x, xs, hx, hxs⟩ := lastBytes_eq_cons (v := v) (d := d) (by omega)
    have hlen : (xs ++ [b]).length = v.trimCount := by simpa using hxs
    have hlt := bigEndian_lt (xs ++ [b])
    rw [lastBytes_snoc_of_le v.trimCount_pos (by omega), hx, List.tail_cons, List.cons_append, bigEndian_cons,
      ← hlen, Nat.mul_add_mod_of_lt hlt]

/-- The oldest byte of a full line is the first of the last `T`. -/
theorem oldestByte_lastBytes {v : Variant} {d xs : List Byte} {w : Word} {x : Byte}
    (h : w.toNat = bigEndian (lastBytes v.trimCount d)) (hx : lastBytes v.trimCount d = x :: xs)
    (hxs : xs.length + 1 = v.trimCount) : oldestByte v w = x := by
  have hlt := bigEndian_lt xs
  have hpow : 2 ^ (8 * v.trimCount - 8) = 256 ^ xs.length := by
    rw [← two_pow_eight_mul, ← hxs]; rfl
  apply BitVec.eq_of_toNat_eq
  rw [oldestByte_toNat, h, hx, bigEndian_cons, hpow, Nat.mul_comm, Nat.mul_add_div (by omega), Nat.div_eq_of_lt hlt]
  have := x.isLt
  omega

/-- While the line fills, nothing is in the summed set. -/
theorem summedSet_snoc_of_lt {v : Variant} {d : List Byte} (h : d.length < v.trimCount) (b : Byte) :
    summedSet v (d ++ [b]) = summedSet v d := by
  have h1 : d.length + 1 - v.trimCount = 0 := by omega
  have h2 : d.length - v.trimCount = 0 := by omega
  simp [summedSet, h1, h2]

/-- Once the line is full, the byte it hands on joins the summed set. -/
theorem summedSet_snoc_of_le {v : Variant} {d xs : List Byte} {x : Byte} (h : v.trimCount ≤ d.length)
    (hx : lastBytes v.trimCount d = x :: xs) (b : Byte) : summedSet v (d ++ [b]) = summedSet v d ++ [x] := by
  have hpos := v.trimCount_pos
  have h1 : d.length + 1 - v.trimCount = d.length - v.trimCount + 1 := by omega
  have hget : d[d.length - v.trimCount]? = some x := by
    rw [lastBytes] at hx
    rw [← List.head?_drop, hx, List.head?_cons]
  rw [summedSet, summedSet, List.length_append, List.length_singleton, h1, List.take_append_of_le_length (by omega),
    List.take_add_one, hget, Option.toList_some]

theorem summedSet_length_le (v : Variant) (d : List Byte) : (summedSet v d).length ≤ d.length := by
  simp [summedSet]

/-! ## The selected accumulator -/

/-- Adding a byte to the selected accumulator while the exact sum fits in `ACCW`. -/
theorem Regs.Holds.addByte {r : Regs} {n : Nat} (h : r.Holds n) (x : Byte) (hn : n + x.toNat < 2 ^ 64) :
    (r.addByte x).Holds (n + x.toNat) := by
  obtain ⟨hnarrow, hwide⟩ := h
  refine ⟨fun hv => ?_, fun hv => ?_⟩
  · rw [Regs.addByte_var] at hv
    rw [Regs.addByte_acc8_narrow hv, hnarrow hv]; omega
  · rw [Regs.addByte_var] at hv
    rw [Regs.addByte_accw_wide hv, hwide hv, Nat.mod_eq_of_lt hn]

/-- `Holds` looks at the variant and the accumulators only. -/
theorem Regs.Holds.congr {r t : Regs} {n : Nat} (h : r.Holds n) (hv : t.var = r.var) (h8 : t.acc8 = r.acc8)
    (hw : t.accw = r.accw) : t.Holds n := by
  rwa [Regs.Holds, hv, h8, hw]

theorem Regs.Holds.takeByte_some {r : Regs} {n : Nat} {b x : Byte} (h : r.Holds n) (hx : summedByte r b = some x)
    (hn : n + x.toNat < 2 ^ 64) : (r.takeByte b).Holds (n + x.toNat) :=
  have ⟨h8, hw⟩ := Regs.takeByte_acc_some hx
  (h.addByte x hn).congr (by simp) h8 hw

theorem Regs.Holds.takeByte_none {r : Regs} {n : Nat} {b : Byte} (h : r.Holds n) (hx : summedByte r b = none) :
    (r.takeByte b).Holds n :=
  have ⟨h8, hw⟩ := Regs.takeByte_acc_none hx
  h.congr (by simp) h8 hw

/-! ## The partial sum -/

/-- A fresh transaction is the partial sum of no byte. -/
theorem Regs.Opened.partialSumOf_nil {r t : Regs} (h : r.Opened t) : t.PartialSumOf [] := by
  refine ⟨by simp [h.cnt], fun hl => ?_, fun hl => ⟨?_, ?_⟩⟩
  · have := h.sum
    rw [hl] at this
    simpa [add_assoc] using this
  · have := h.sum
    rw [hl] at this
    simpa [summedSet] using this
  · simp [h.trail, lastBytes]

/-- `DATA b` takes the partial sum of `d` to that of `d` and `b`. -/
theorem Regs.PartialSumOf.takeByte {r : Regs} {d : List Byte} (h : r.PartialSumOf d) (hc : r.cnt.toNat < 255)
    (b : Byte) : (r.takeByte b).PartialSumOf (d ++ [b]) := by
  obtain ⟨hcnt, hraw, hframe⟩ := h
  have := r.idh.isLt
  have := r.idl.isLt
  have := r.len.isLt
  have hb := b.isLt
  refine ⟨?_, fun hl => ?_, fun hl => ?_⟩
  · rw [Regs.takeByte_cnt, toNat_add_one_of_lt hc]; simpa using hcnt
  · rw [Regs.takeByte_layer] at hl
    have hle := byteSum_le d
    have hsum := (hraw hl).takeByte_some (summedByte_raw hl b) (by omega)
    simpa [add_assoc] using hsum
  · rw [Regs.takeByte_layer] at hl
    obtain ⟨hsum, htrail⟩ := hframe hl
    have hle := byteSum_le (summedSet r.var d)
    have hlen := summedSet_length_le r.var d
    simp only [Regs.takeByte_var, Regs.takeByte_idh, Regs.takeByte_idl, Regs.takeByte_trail, nextTrail_frame hl]
    refine ⟨?_, shiftIn_lastBytes htrail b⟩
    by_cases hfull : r.var.trimCount ≤ d.length
    · obtain ⟨x, xs, hx, hxs⟩ := lastBytes_eq_cons hfull
      have hold : summedByte r b = some x := by
        rw [summedByte_frame hl, if_pos (hcnt ▸ hfull), oldestByte_lastBytes htrail hx hxs]
      have := x.isLt
      rw [summedSet_snoc_of_le hfull hx, byteSum_append, ← add_assoc]
      simpa using hsum.takeByte_some hold (by omega)
    · have hnone : summedByte r b = none := by rw [summedByte_frame hl, if_neg (hcnt ▸ hfull)]
      rw [summedSet_snoc_of_lt (by omega)]
      exact hsum.takeByte_none hnone

theorem RegStep.partialSum {c : Config} {r t : Regs} (h : RegStep c r t) (hcnt : r.cnt.toNat ≤ c.maxLen)
    (hr : r.phase = .active → ∃ d, r.PartialSumOf d) : t.phase = .active → ∃ d, t.PartialSumOf d := by
  cases h with
  | unchanged => exact hr
  | opened hp ht => exact fun _ => ⟨[], ht.partialSumOf_nil⟩
  | tookByte b hp hc =>
    intro _
    obtain ⟨d, hd⟩ := hr hp
    have hmax := c.maxLen_bounds
    exact ⟨d ++ [b], hd.takeByte (by omega) b⟩
  | cleared | faulted | closedRaw | closedFrame => exact nofun

/-- Settles O28: a start command opens with no byte, `DATA` appends its byte, and every other kind of step that changes
anything leaves `ACTIVE`. -/
theorem stepKeepsPartialSum : Obligations.StepKeepsPartialSum := by
  intro s t hs hsum h
  obtain ⟨⟨hcnt, -⟩, -⟩ := hs
  exact (step_regStep h).partialSum hcnt hsum

end Sys2Proof.Machine
end

section
/-!
PROOFS. What `END` makes of the partial sum: the document's checksum of the payload (10_state R24, R35;
40_reference_functions R123 to R129).
-/

namespace Sys2Proof.Machine

/-- Closing a raw transaction: the accumulator already holds the primitive's value. -/
theorem Regs.PartialSumOf.resultOf_closedRaw {r : Regs} {d : List Byte} (h : r.PartialSumOf d) (hl : r.layer = .raw) :
    Regs.ResultOf { r with phase := .done } d := by
  obtain ⟨hcnt, hraw, -⟩ := h
  obtain ⟨hnarrow, hwide⟩ := hraw hl
  refine ⟨hcnt, fun _ hv => ?_, fun _ hv => wide_eq_some.mpr (hwide hv), ?_, ?_, ?_⟩
  · exact BitVec.eq_of_toNat_eq ((hnarrow hv).trans (narrow_toNat ..).symm)
  all_goals intro hf; cases hl.symm.trans hf

/-- The frame adapters on the header bytes CORE holds, as the primitives with the count and the summed set
(40_reference_functions R127, R128). -/
theorem fromFrame_unsplit {idh idl cnt : Byte} {d : List Byte} (hd : d.length = cnt.toNat) (h : 1 ≤ d.length) :
    fromFrame (unsplit idh idl) d = some (narrow idh idl cnt (summedSet .narrow d)) := by
  have := cnt.isLt
  rw [fromFrame, if_pos ⟨h, by omega⟩, hd, BitVec.ofNat_toNat, BitVec.setWidth_eq, splitHigh_unsplit, splitLow_unsplit,
    summedSet, hd, Variant.trimCount_narrow]

theorem fromFrameWide_unsplit {idh idl cnt : Byte} {d : List Byte} (hd : d.length = cnt.toNat) (h : 4 ≤ d.length) :
    fromFrameWide (unsplit idh idl) d = wide idh idl cnt (summedSet .wide d) := by
  have := cnt.isLt
  rw [fromFrameWide, if_pos ⟨h, by omega⟩, hd, BitVec.ofNat_toNat, BitVec.setWidth_eq, splitHigh_unsplit,
    splitLow_unsplit, summedSet, hd, Variant.trimCount_wide]

/-- Closing a frame adds the count, which is the adapter's length byte. -/
theorem Regs.PartialSumOf.resultOf_closeFrame {r : Regs} {d : List Byte} (h : r.PartialSumOf d) (hl : r.layer = .frame)
    (hc : r.var.trimCount ≤ r.cnt.toNat) : r.closeFrame.ResultOf d := by
  obtain ⟨hcnt, -, hframe⟩ := h
  obtain ⟨hsum, htrail⟩ := hframe hl
  have := r.idh.isLt
  have := r.idl.isLt
  have hb := r.cnt.isLt
  have hle := byteSum_le (summedSet r.var d)
  have hlen := summedSet_length_le r.var d
  obtain ⟨hnarrow, hwide⟩ := hsum.addByte r.cnt (by omega)
  rw [Regs.addByte_var] at hnarrow hwide
  simp only [Regs.ResultOf, Regs.closeFrame_cnt, Regs.closeFrame_layer, Regs.closeFrame_var, Regs.closeFrame_idh,
    Regs.closeFrame_idl, Regs.closeFrame_acc8, Regs.closeFrame_accw, Regs.closeFrame_len, Regs.closeFrame_trail,
    true_and]
  refine ⟨hcnt, ?_, ?_, fun _ hv => ?_, fun _ hv => ?_, fun _ => ?_⟩
  iterate 2 intro hf; cases hl.symm.trans hf
  · rw [hv, Variant.trimCount_narrow, ← hcnt] at hc
    rw [fromFrame_unsplit hcnt hc, Option.some.injEq, ← BitVec.toNat_inj, narrow_toNat, hnarrow hv, hv, add_right_comm]
  · rw [hv, Variant.trimCount_wide, ← hcnt] at hc
    rw [fromFrameWide_unsplit hcnt hc, wide_eq_some, hwide hv, hv, add_right_comm]
  · rw [trailOf, if_pos (hcnt ▸ hc), ← htrail, BitVec.ofNat_toNat, BitVec.setWidth_eq]

theorem RegStep.resultSound {c : Config} {r t : Regs} (h : RegStep c r t)
    (hsum : r.phase = .active → ∃ d, r.PartialSumOf d) (hr : r.phase = .done → ∃ d, r.ResultOf d) :
    t.phase = .done → ∃ d, t.ResultOf d := by
  cases h with
  | unchanged => exact hr
  | closedRaw hp hl =>
    obtain ⟨d, hd⟩ := hsum hp
    exact fun _ => ⟨d, hd.resultOf_closedRaw hl⟩
  | closedFrame hp hl hc =>
    obtain ⟨d, hd⟩ := hsum hp
    exact fun _ => ⟨d, hd.resultOf_closeFrame hl hc⟩
  | opened hp ht => simp [ht.phase]
  | tookByte b hp => simp [hp]
  | cleared | faulted => exact nofun

/-- Settles O30: only `END` enters `DONE`, and it finds the partial sum of the payload. -/
theorem stepKeepsResultSound : Obligations.StepKeepsResultSound := by
  intro s t _ hsum hres h
  exact (step_regStep h).resultSound hsum hres

end Sys2Proof.Machine
end

section
/-!
PROOFS. The run of a start command and its payload (10_state R37; 44_transactions R210).
-/

namespace Sys2Proof.Machine

theorem runWords_encode_cons {s t : State} {i : Instr} (h : exec i s = .next t) (ws : List Word) :
    runWords s (encode i :: ws) = runWords t ws :=
  runWords_cons ((step_presentFirst_encode s i).trans h) ws

/-- `DATA b` below `MAXLEN` is taken. -/
theorem exec_data_active {s : State} (b : Byte) (hp : s.regs.phase = .active) (hc : s.regs.cnt.toNat < s.cfg.maxLen) :
    exec (.data b) s = .next (s.withRegs (s.regs.takeByte b)) := by
  rw [exec_data, State.whenAccepted_accepted (by simp [hp]) (acceptsTransfer_eq_true.mpr hp), State.dataRule,
    if_neg hc.ne]

/-- From the partial sum of `e`, the bytes `d` lead to the partial sum of both. -/
theorem runWords_dataWords {s : State} {e d : List Byte} (hp : s.regs.phase = .active) (hs : s.regs.PartialSumOf e)
    (hlen : e.length + d.length ≤ s.cfg.maxLen) :
    ∃ t, runWords s (dataWords d) = .next t ∧ t.regs.phase = .active ∧ t.regs.PartialSumOf (e ++ d) := by
  induction d generalizing s e with
  | nil => exact ⟨_, runWords_nil s, hp, by simpa using hs⟩
  | cons b d ih =>
    have hmax := s.cfg.maxLen_bounds
    have hcnt : e.length = s.regs.cnt.toNat := hs.1
    rw [List.length_cons] at hlen
    obtain ⟨t, h, ht, hsum⟩ := ih (s := s.withRegs (s.regs.takeByte b)) (e := e ++ [b]) (by simpa using hp)
      (hs.takeByte (by omega) b) (by simp; omega)
    refine ⟨t, ?_, ht, by simpa using hsum⟩
    rw [← h]
    exact runWords_encode_cons (exec_data_active b hp (by omega)) (dataWords d)

/-- Settles O29: the start command opens with no byte, and each `DATA` appends its byte. -/
theorem partialSumAfterData : Obligations.PartialSumAfterData := by
  intro s i d hi hp hd
  obtain ⟨u, hu, hcfg, hopen⟩ := exec_start_opens hi hp
  rw [runWords_encode_cons hu]
  exact runWords_dataWords (e := []) hopen.phase hopen.partialSumOf_nil (by simpa [hcfg] using hd)

end Sys2Proof.Machine
end

section
/-!
PROOFS. What an accepted start command does not read (10_state R38), and what `DATA` and `END` do not write (R40).
-/

namespace Sys2Proof.Machine

/-- Opening reads no register but `ERR`. -/
theorem State.openWith_congr {s s' : State} (herr : s.regs.err = s'.regs.err) (hcfg : s.cfg = s'.cfg)
    (hins : s.inputs = s'.inputs) (v : Variant) (l : Layer) (idh idl len : Byte) (terms : List Byte) :
    s.openWith v l idh idl len terms = s'.openWith v l idh idl len terms := by
  obtain ⟨r, c, ins⟩ := s
  obtain ⟨r', c', ins'⟩ := s'
  cases hcfg
  cases hins
  rw [State.openWith, State.openWith, herr]
  rfl

/-- Settles O31: opening reads `ERR` alone, which is `NONE` in both states. -/
theorem noStateCrossesTransaction : Obligations.NoStateCrossesTransaction := by
  intro i s s' hi hp hp' herr herr' hcfg hins
  obtain ⟨v, l, idh, idl, len, terms, h⟩ := exec_start_shape hi
  have hf := ne_fault_of_idle_or_done hp
  have hf' := ne_fault_of_idle_or_done hp'
  have hsame : s.regs.err = s'.regs.err := (herr.err_eq_none hf).trans (herr'.err_eq_none hf').symm
  refine ⟨s.openWith v l idh idl len terms, ?_, ?_⟩
  · rw [h, State.whenAccepted_accepted hf (acceptsStart_eq_true.mpr hp)]
  · rw [h, State.whenAccepted_accepted hf' (acceptsStart_eq_true.mpr hp'), State.openWith_congr hsame hcfg hins]

/-- Between the registers `r` before and `t` after the command `i`, no register is written that is not `i`'s to write:
the table of 10_state R40 without the start commands and `CLR`. -/
def WritesOnlyItsOwn (i : Instr) (r t : Regs) : Prop :=
  t.var = r.var ∧ t.layer = r.layer ∧ t.idh = r.idh ∧ t.idl = r.idl ∧
  (t.cnt ≠ r.cnt → ∃ b, i = .data b) ∧
  (t.len ≠ r.len → i = .end_ ∧ r.layer = .frame) ∧
  (t.trail ≠ r.trail → (∃ b, i = .data b) ∧ r.layer = .frame) ∧
  (t.acc8 ≠ r.acc8 → r.var = .narrow ∧ (i = .end_ → r.layer = .frame)) ∧
  (t.accw ≠ r.accw → r.var = .wide ∧ (i = .end_ → r.layer = .frame)) ∧
  (t.phase = .fault → t = r ∨ ∃ code, t = r.faulted code)

theorem Variant.eq_narrow_of_ne_wide {v : Variant} (h : v ≠ .wide) : v = .narrow := by
  cases v with
  | narrow => rfl
  | wide => exact absurd rfl h

theorem Variant.eq_wide_of_ne_narrow {v : Variant} (h : v ≠ .narrow) : v = .wide := by
  cases v with
  | narrow => exact absurd rfl h
  | wide => rfl

theorem Layer.eq_frame_of_ne_raw {l : Layer} (h : l ≠ .raw) : l = .frame := by
  cases l with
  | raw => exact absurd rfl h
  | frame => rfl

/-- `PHASE` and `ERR` are every command's to write; in `FAULT` the result must be the registers before, or a fault of
them. -/
theorem writesOnlyItsOwn_of_phase_err (i : Instr) (r : Regs) (p : Phase) (e : ErrCode)
    (h : p = .fault → { r with phase := p, err := e } = r ∨ ∃ code, { r with phase := p, err := e } = r.faulted code) :
    WritesOnlyItsOwn i r { r with phase := p, err := e } :=
  ⟨rfl, rfl, rfl, rfl, absurd rfl, absurd rfl, absurd rfl, absurd rfl, absurd rfl, h⟩

theorem writesOnlyItsOwn_takeByte {r : Regs} (hp : r.phase = .active) (b : Byte) :
    WritesOnlyItsOwn (.data b) r (r.takeByte b) := by
  refine ⟨r.takeByte_var b, r.takeByte_layer b, r.takeByte_idh b, r.takeByte_idl b, fun _ => ⟨b, rfl⟩,
    absurd (r.takeByte_len b), fun h => ⟨⟨b, rfl⟩, ?_⟩, fun h => ⟨?_, nofun⟩, fun h => ⟨?_, nofun⟩, by simp [hp]⟩
  · exact Layer.eq_frame_of_ne_raw fun hl => h (nextTrail_raw hl b)
  · exact Variant.eq_narrow_of_ne_wide fun hv => h (Regs.takeByte_acc8_wide hv b)
  · exact Variant.eq_wide_of_ne_narrow fun hv => h (Regs.takeByte_accw_narrow hv b)

theorem writesOnlyItsOwn_closeFrame {r : Regs} (hl : r.layer = .frame) : WritesOnlyItsOwn .end_ r r.closeFrame := by
  refine ⟨r.closeFrame_var, r.closeFrame_layer, r.closeFrame_idh, r.closeFrame_idl, absurd r.closeFrame_cnt,
    fun _ => ⟨rfl, hl⟩, absurd r.closeFrame_trail, fun h => ⟨?_, fun _ => hl⟩, fun h => ⟨?_, fun _ => hl⟩, by simp⟩
  · exact Variant.eq_narrow_of_ne_wide fun hv => h (Regs.addByte_acc8_wide hv r.cnt)
  · exact Variant.eq_wide_of_ne_narrow fun hv => h (Regs.addByte_accw_narrow hv r.cnt)

/-- The phase check writes nothing, or `PHASE` and `ERR`; what else a command writes, its rule does. -/
theorem State.whenAccepted_writesOnlyItsOwn {i : Instr} {acc : Phase → Bool} {f : State → State} {s : State}
    (h : acc s.regs.phase = true → WritesOnlyItsOwn i s.regs (f s).regs) :
    WritesOnlyItsOwn i s.regs (s.whenAccepted acc f).regs :=
  State.whenAccepted_regs (writesOnlyItsOwn_of_phase_err i s.regs s.regs.phase s.regs.err fun _ => .inl rfl)
    (fun _ code _ => writesOnlyItsOwn_of_phase_err i s.regs .fault code fun _ => .inr ⟨code, rfl⟩) h

theorem State.dataRule_writesOnlyItsOwn {s : State} (b : Byte) (hp : s.regs.phase = .active) :
    WritesOnlyItsOwn (.data b) s.regs (s.dataRule b).regs := by
  obtain ⟨-, e⟩ | ⟨-, e⟩ := s.dataRule_cases b
  · rw [e]; exact writesOnlyItsOwn_of_phase_err _ _ .fault .long fun _ => .inr ⟨.long, rfl⟩
  · rw [e]; exact writesOnlyItsOwn_takeByte hp b

theorem State.endRule_writesOnlyItsOwn (s : State) : WritesOnlyItsOwn .end_ s.regs s.endRule.regs := by
  obtain ⟨-, e⟩ | ⟨-, -, e⟩ | ⟨hl, -, e⟩ := s.endRule_cases
  · rw [e]; exact writesOnlyItsOwn_of_phase_err _ _ .done s.regs.err nofun
  · rw [e]; exact writesOnlyItsOwn_of_phase_err _ _ .fault .short fun _ => .inr ⟨.short, rfl⟩
  · rw [e]; exact writesOnlyItsOwn_closeFrame hl

/-- Settles O32: only `DATA` and `END` are left, and each writes what its rule writes. -/
theorem writersOfEachRegister : Obligations.WritersOfEachRegister := by
  intro i s t h hi hclr
  cases i with
  | data b =>
    cases h
    exact State.whenAccepted_writesOnlyItsOwn fun ha =>
      State.dataRule_writesOnlyItsOwn b (acceptsTransfer_eq_true.mp ha)
  | end_ =>
    cases h
    exact State.whenAccepted_writesOnlyItsOwn fun _ => s.endRule_writesOnlyItsOwn
  | clr => exact absurd rfl hclr
  | startRN | startRW | startFN | startFW => cases hi

end Sys2Proof.Machine
end

section
/-!
PROOFS. The registers after reset (10_state R39) and the layout of `STATUS` (R34).
-/

namespace Sys2Proof.Machine

/-- Settles O25: the reset registers are in `IDLE`, where no transaction is open or finished. -/
theorem resetSatisfiesInvariants : Obligations.ResetSatisfiesInvariants := by
  intro c ins
  exact ⟨reset_inv c ins, nofun, nofun⟩

theorem step_of_reset_edge {s : State} {p : PortIn} {rest : List PortIn} (h : s.inputs = p :: rest)
    (hp : p.edge = .reset) : step s = .next (s.clear.withInputs rest) := by
  simp [step, State.nextEdge, h, hp]

/-- Settles O33: `CLR` and `rst` both write the reset registers. -/
theorem resetLeavesEveryRegisterZero : Obligations.ResetLeavesEveryRegisterZero :=
  ⟨by decide, fun _ => rfl, fun _ valid cw _ h => step_of_reset_edge h (PortIn.ofReset_edge valid cw)⟩

theorem Phase.code_lt (p : Phase) : p.code < 4 := by cases p <;> decide
theorem Variant.code_lt (v : Variant) : v.code < 2 := by cases v <;> decide
theorem Layer.code_lt (l : Layer) : l.code < 2 := by cases l <;> decide

/-- The fields of `STATUS` do not overlap, so it is the sum of them as a number. -/
theorem status_toNat (r : Regs) : (status r).toNat =
    r.cnt.toNat * 2 ^ 8 + r.layer.code * 2 ^ 6 + r.var.code * 2 ^ 5 + r.err.code * 2 ^ 2 + r.phase.code := by
  have := r.cnt.isLt
  have := r.layer.code_lt
  have := r.var.code_lt
  have := r.err.code_le
  have := r.phase.code_lt
  exact Nat.mod_eq_of_lt (by omega)

/-- Settles O34: each field is below the weight of the next. -/
theorem statusLayout : Obligations.StatusLayout := by
  intro r
  have := r.layer.code_lt
  have := r.var.code_lt
  have := r.err.code_le
  have := r.phase.code_lt
  rw [status_toNat]
  refine ⟨?_, ?_, ?_, ?_, ?_, ?_⟩ <;> omega

end Sys2Proof.Machine
end

section
/-!
PROOFS. What one clock edge does, by the ports the host drives at it (20_memory R62).
-/

namespace Sys2Proof.Machine

theorem PortIn.edge_of_rst {p : PortIn} (h : p.rst = true) : p.edge = .reset := by
  simp [PortIn.edge, h]

theorem PortIn.edge_of_not_cmdValid {p : PortIn} (hr : p.rst = false) (hv : p.cmdValid = false) : p.edge = .quiet := by
  simp [PortIn.edge, hr, hv]

theorem PortIn.edge_of_cmdValid {p : PortIn} (hr : p.rst = false) (hv : p.cmdValid = true) :
    p.edge = .command p.cmd := by
  simp [PortIn.edge, hr, hv]

theorem step_of_quiet_edge {s : State} {p : PortIn} {rest : List PortIn} (h : s.inputs = p :: rest)
    (hp : p.edge = .quiet) : step s = .next (s.withInputs rest) := by
  simp [step, State.nextEdge, h, hp]

/-- Of the ports at a command edge only the word matters. -/
theorem step_of_command_edge {s : State} {p : PortIn} {rest : List PortIn} {cw : Word} (h : s.inputs = p :: rest)
    (hp : p.edge = .command cw) : step s = step ((s.withInputs rest).presentFirst cw) := by
  have he : s.nextEdge = (.command cw, s.withInputs rest) := by simp [State.nextEdge, h, hp]
  simp only [step, he, State.nextEdge_presentFirst]

theorem step_presentFirst_of_instr {cw : Word} {i : Instr} (h : decode cw = .instr i) (s : State) :
    step (s.presentFirst cw) = exec i s := by
  simp [step, h]

theorem step_presentFirst_of_illegal {cw : Word} {why : IllegalForm} (h : decode cw = .illegal why) (s : State) :
    step (s.presentFirst cw) = .next s.illegalWord := by
  simp [step, h]

/-- Settles O15: the ports ask for the word, and the word decodes to `i`. -/
theorem stepRunsDecodedCommand : Obligations.StepRunsDecodedCommand := by
  intro s p rest i h hr hv hd
  rw [step_of_command_edge h (PortIn.edge_of_cmdValid hr hv)]
  exact step_presentFirst_of_instr hd (s.withInputs rest)

/-- Settles O16: one clause for each kind of edge; at a command edge the registers are those of `step_presentFirst`, which
serve every later list of the host's. -/
theorem clockEdgeActs : Obligations.ClockEdgeActs := by
  intro s p rest h
  refine ⟨fun hr => step_of_reset_edge h (PortIn.edge_of_rst hr),
    fun hr hv => step_of_quiet_edge h (PortIn.edge_of_not_cmdValid hr hv), fun hr hv => ⟨?_, ?_, ?_⟩⟩
  · exact fun i hd => stepRunsDecodedCommand s p rest i h hr hv hd
  · intro why hd
    rw [step_of_command_edge h (PortIn.edge_of_cmdValid hr hv), step_presentFirst_of_illegal hd]
    rfl
  · obtain ⟨⟨r, c, ins⟩, -, hcfg, -, hlater⟩ := step_presentFirst s p.cmd
    cases hcfg
    exact ⟨r, fun later => (step_of_command_edge rfl (PortIn.edge_of_cmdValid hr hv)).trans (hlater later)⟩

/-- Settles O17: an empty list leaves `step_cases` one case. -/
theorem nothingPresentedNothingChanges : Obligations.NothingPresentedNothingChanges := by
  intro s h
  obtain ⟨-, e⟩ | ⟨p, rest, hp, -⟩ := step_cases s
  · exact e
  · cases h.symm.trans hp

end Sys2Proof.Machine
end

section
/-!
SUPPORT. The words of each row of the opcode map as ranges of numbers (30_encoding R97, R102), and the mask and match that
select a range.
-/

namespace Sys2Proof

/-- A field that reaches the top of the word is what stands above its lowest bit. -/
theorem bits_top (w : Word) {lo : Nat} (h : lo ≤ 31) : bits w 31 lo = w.toNat / 2 ^ lo := by
  have hpow : 2 ^ lo * 2 ^ (31 - lo + 1) = 2 ^ 32 := by rw [← pow_add]; congr 1; omega
  exact Nat.mod_eq_of_lt (Nat.div_lt_of_lt_mul (hpow ▸ w.isLt))

theorem exists_encode_startRN_iff (w : Word) :
    (∃ idh idl len, encode (.startRN idh idl len) = w) ↔ w.toNat / 2 ^ 24 = 0x10 := by
  constructor
  · rintro ⟨idh, idl, len, rfl⟩
    exact (bits_top _ (by decide)).symm.trans (Laws.OpcodeBits.startRN idh idl len)
  · intro h
    refine ⟨byteAt w 16, byteAt w 8, byteAt w 0, BitVec.eq_of_toNat_eq ?_⟩
    simp only [encode, BitVec.toNat_ofNat, byteAt_toNat]; omega

theorem exists_encode_startRW_iff (w : Word) :
    (∃ idh idl len, encode (.startRW idh idl len) = w) ↔ w.toNat / 2 ^ 24 = 0x11 := by
  constructor
  · rintro ⟨idh, idl, len, rfl⟩
    exact (bits_top _ (by decide)).symm.trans (Laws.OpcodeBits.startRW idh idl len)
  · intro h
    refine ⟨byteAt w 16, byteAt w 8, byteAt w 0, BitVec.eq_of_toNat_eq ?_⟩
    simp only [encode, BitVec.toNat_ofNat, byteAt_toNat]; omega

theorem exists_encode_startFN_iff (w : Word) :
    (∃ address, encode (.startFN address) = w) ↔ w.toNat / 2 ^ 16 = 0x2000 := by
  constructor
  · rintro ⟨address, rfl⟩
    exact (bits_top _ (by decide)).symm.trans (Laws.OpcodeBits.startFN address)
  · intro h
    refine ⟨identAt w, BitVec.eq_of_toNat_eq ?_⟩
    simp only [encode, BitVec.toNat_ofNat, identAt_toNat]; omega

theorem exists_encode_startFW_iff (w : Word) :
    (∃ address, encode (.startFW address) = w) ↔ w.toNat / 2 ^ 16 = 0x2100 := by
  constructor
  · rintro ⟨address, rfl⟩
    exact (bits_top _ (by decide)).symm.trans (Laws.OpcodeBits.startFW address)
  · intro h
    refine ⟨identAt w, BitVec.eq_of_toNat_eq ?_⟩
    simp only [encode, BitVec.toNat_ofNat, identAt_toNat]; omega

theorem exists_encode_data_iff (w : Word) : (∃ b, encode (.data b) = w) ↔ w.toNat / 2 ^ 8 = 0x300000 := by
  constructor
  · rintro ⟨b, rfl⟩
    exact (bits_top _ (by decide)).symm.trans (Laws.OpcodeBits.data b)
  · intro h
    refine ⟨byteAt w 0, BitVec.eq_of_toNat_eq ?_⟩
    simp only [encode, BitVec.toNat_ofNat, byteAt_toNat]; omega

/-- A mask of all bits from `k` up compares the number above bit `k`. -/
theorem and_highMask_eq_iff {mask m : Word} {k v : Nat} (hmask : mask = BitVec.allOnes 32 <<< k)
    (hm : m.toNat = v * 2 ^ k) (w : Word) : w &&& mask = m ↔ w.toNat / 2 ^ k = v := by
  have hlt : w.toNat / 2 ^ k * 2 ^ k < 2 ^ 32 := (Nat.div_mul_le_self _ _).trans_lt w.isLt
  rw [hmask, ← BitVec.shiftLeft_ushiftRight, ← BitVec.toNat_inj, hm, BitVec.toNat_shiftLeft, BitVec.toNat_ushiftRight,
    Nat.shiftRight_eq_div_pow, Nat.shiftLeft_eq, Nat.mod_eq_of_lt hlt, Nat.mul_left_inj (by positivity)]

end Sys2Proof
end

section
/-!
SUPPORT. Every word is the word of a command or has one of the five illegal forms, and the decoder tells them apart
(30_encoding R96, R98): the encoding statements follow.
-/

namespace Sys2Proof

/-- The bits of `w` are those of one of the cases (a) to (e) of 30_encoding R98. -/
def IllegalBits (w : Word) : Prop :=
  (w.toNat / 2 ^ 28 = 0 ∨ 6 ≤ w.toNat / 2 ^ 28) ∨
  ((w.toNat / 2 ^ 28 = 1 ∨ w.toNat / 2 ^ 28 = 2) ∧ w.toNat / 2 ^ 25 % 2 ^ 3 ≠ 0) ∨
  (w.toNat / 2 ^ 28 = 2 ∧ w.toNat / 2 ^ 16 % 2 ^ 8 ≠ 0) ∨
  (w.toNat / 2 ^ 28 = 3 ∧ w.toNat / 2 ^ 8 % 2 ^ 20 ≠ 0) ∨
  ((w.toNat / 2 ^ 28 = 4 ∨ w.toNat / 2 ^ 28 = 5) ∧ w.toNat % 2 ^ 28 ≠ 0)

/-- A word with none of the illegal forms lies in the range of one of the seven rows. -/
theorem exists_encode_eq_of_not_illegalBits {w : Word} (h : ¬ IllegalBits w) : ∃ i, encode i = w := by
  have hrow : w.toNat / 2 ^ 24 = 0x10 ∨ w.toNat / 2 ^ 24 = 0x11 ∨ w.toNat / 2 ^ 16 = 0x2000 ∨
      w.toNat / 2 ^ 16 = 0x2100 ∨ w.toNat / 2 ^ 8 = 0x300000 ∨ w.toNat = 0x40000000 ∨ w.toNat = 0x50000000 := by
    unfold IllegalBits at h; omega
  obtain h | h | h | h | h | h | h := hrow
  · obtain ⟨idh, idl, len, e⟩ := (exists_encode_startRN_iff w).mpr h; exact ⟨_, e⟩
  · obtain ⟨idh, idl, len, e⟩ := (exists_encode_startRW_iff w).mpr h; exact ⟨_, e⟩
  · obtain ⟨address, e⟩ := (exists_encode_startFN_iff w).mpr h; exact ⟨_, e⟩
  · obtain ⟨address, e⟩ := (exists_encode_startFW_iff w).mpr h; exact ⟨_, e⟩
  · obtain ⟨b, e⟩ := (exists_encode_data_iff w).mpr h; exact ⟨_, e⟩
  · exact ⟨.end_, BitVec.eq_of_toNat_eq h.symm⟩
  · exact ⟨.clr, BitVec.eq_of_toNat_eq h.symm⟩

theorem decode_opcode_one {w : Word} (h : w.toNat / 2 ^ 28 = 1) : decode w = decodeStartRaw w := by
  simp [decode, (bits_top w (by decide)).trans h]

theorem decode_opcode_two {w : Word} (h : w.toNat / 2 ^ 28 = 2) : decode w = decodeStartFrame w := by
  simp [decode, (bits_top w (by decide)).trans h]

theorem decode_opcode_three {w : Word} (h : w.toNat / 2 ^ 28 = 3) : decode w = decodeData w := by
  simp [decode, (bits_top w (by decide)).trans h]

theorem decode_opcode_four {w : Word} (h : w.toNat / 2 ^ 28 = 4) : decode w = decodeZero .end_ w := by
  simp [decode, (bits_top w (by decide)).trans h]

theorem decode_opcode_five {w : Word} (h : w.toNat / 2 ^ 28 = 5) : decode w = decodeZero .clr w := by
  simp [decode, (bits_top w (by decide)).trans h]

theorem decode_opcode_unused {w : Word} (h : w.toNat / 2 ^ 28 = 0 ∨ 6 ≤ w.toNat / 2 ^ 28) :
    decode w = .illegal .opcode := by
  have hne : ∀ k, 1 ≤ k → k ≤ 5 → bits w 31 28 ≠ k := by rw [bits_top w (by decide)]; omega
  simp [decode, hne]

theorem decodeStartRaw_reserved {w : Word} (h : w.toNat / 2 ^ 25 % 2 ^ 3 ≠ 0) :
    decodeStartRaw w = .illegal .startBits := if_neg h

theorem decodeStartFrame_reserved {w : Word} (h : w.toNat / 2 ^ 25 % 2 ^ 3 ≠ 0 ∨ w.toNat / 2 ^ 16 % 2 ^ 8 ≠ 0) :
    ∃ why, decodeStartFrame w = .illegal why := by
  by_cases hv : bits w 27 25 = 0
  · exact ⟨.frameBits, (if_pos hv).trans (if_neg (h.resolve_left (not_not_intro hv)))⟩
  · exact ⟨.startBits, if_neg hv⟩

theorem decodeData_reserved {w : Word} (h : w.toNat / 2 ^ 8 % 2 ^ 20 ≠ 0) : decodeData w = .illegal .dataBits :=
  if_neg h

theorem decodeZero_reserved {w : Word} (h : w.toNat % 2 ^ 28 ≠ 0) (i : Instr) :
    decodeZero i w = .illegal .zeroBits :=
  if_neg (by rwa [bits_eq, pow_zero, Nat.div_one])

/-- The decoder answers `ILLEGAL` on each of the five forms. -/
theorem IllegalBits.decode_illegal {w : Word} (h : IllegalBits w) : ∃ why, decode w = .illegal why := by
  obtain h | ⟨hop | hop, h⟩ | ⟨hop, h⟩ | ⟨hop, h⟩ | ⟨hop | hop, h⟩ := h
  · exact ⟨_, decode_opcode_unused h⟩
  · exact ⟨_, (decode_opcode_one hop).trans (decodeStartRaw_reserved h)⟩
  · exact decode_opcode_two hop ▸ decodeStartFrame_reserved (.inl h)
  · exact decode_opcode_two hop ▸ decodeStartFrame_reserved (.inr h)
  · exact ⟨_, (decode_opcode_three hop).trans (decodeData_reserved h)⟩
  · exact ⟨_, (decode_opcode_four hop).trans (decodeZero_reserved h _)⟩
  · exact ⟨_, (decode_opcode_five hop).trans (decodeZero_reserved h _)⟩

/-- A word decodes to a command exactly when it is that command's word. -/
theorem decode_eq_instr_iff {w : Word} {i : Instr} : decode w = .instr i ↔ encode i = w := by
  refine ⟨fun h => ?_, fun h => h ▸ decode_encode i⟩
  by_cases hw : IllegalBits w
  · obtain ⟨why, e⟩ := hw.decode_illegal
    cases h.symm.trans e
  · obtain ⟨j, rfl⟩ := exists_encode_eq_of_not_illegalBits hw
    cases h.symm.trans (decode_encode j)
    rfl

theorem decode_illegal_iff {w : Word} : (∃ why, decode w = .illegal why) ↔ IllegalBits w := by
  refine ⟨fun ⟨why, h⟩ => by_contra fun hw => ?_, IllegalBits.decode_illegal⟩
  obtain ⟨j, rfl⟩ := exists_encode_eq_of_not_illegalBits hw
  cases h.symm.trans (decode_encode j)

/-- Settles O1: the formats' words are read back field by field. -/
theorem decodeEncodeRoundTrip : Obligations.DecodeEncodeRoundTrip := decode_encode

/-- Settles O2: a word that decodes to `i` has no illegal form, so it is some command's word, and that command is `i`. -/
theorem encodeDecodeRoundTrip : Obligations.EncodeDecodeRoundTrip := fun _ _ => decode_eq_instr_iff.mp

/-- Settles O3: a word of none of the five forms is a command's word. -/
theorem illegalWordsExactly : Obligations.IllegalWordsExactly := by
  refine ⟨fun w => decode_illegal_iff, ⟨.opcode, by decide⟩, ⟨.opcode, by decide⟩,
    fun w s ⟨why, h⟩ => ⟨fun hp => ?_, fun hp => ?_⟩⟩
  · rw [Machine.step_presentFirst_of_illegal h, Machine.State.illegalWord_of_ne hp]
    rfl
  · rw [Machine.step_presentFirst_of_illegal h, Machine.State.illegalWord_fault hp]

/-- Settles O4: each row's words are a range, and its mask and match select that range. -/
theorem opcodeTableSelects : Obligations.OpcodeTableSelects := by
  intro w
  simp only [decode_eq_instr_iff]
  refine ⟨?_, ?_, ?_, ?_, ?_, ?_, ?_⟩
  · rw [exists_encode_startRN_iff, and_highMask_eq_iff (k := 24) (v := 0x10) (by decide) (by decide)]
  · rw [exists_encode_startRW_iff, and_highMask_eq_iff (k := 24) (v := 0x11) (by decide) (by decide)]
  · rw [exists_encode_startFN_iff, and_highMask_eq_iff (k := 16) (v := 0x2000) (by decide) (by decide)]
  · rw [exists_encode_startFW_iff, and_highMask_eq_iff (k := 16) (v := 0x2100) (by decide) (by decide)]
  · rw [exists_encode_data_iff, and_highMask_eq_iff (k := 8) (v := 0x300000) (by decide) (by decide)]
  · rw [show w &&& 0xFFFFFFFF = w from BitVec.and_allOnes]; exact eq_comm
  · rw [show w &&& 0xFFFFFFFF = w from BitVec.and_allOnes]; exact eq_comm

end Sys2Proof
end

section
/-!
SUPPORT. Counting the legal words: they are as many as the commands (30_encoding R97).
-/

namespace Sys2Proof

/-- A command is one of seven constructors with its operands. -/
def Instr.equivOperands :
    Instr ≃ (Byte × Byte × Byte) ⊕ (Byte × Byte × Byte) ⊕ Ident ⊕ Ident ⊕ Byte ⊕ Unit ⊕ Unit where
  toFun
    | .startRN idh idl len => .inl (idh, idl, len)
    | .startRW idh idl len => .inr (.inl (idh, idl, len))
    | .startFN address => .inr (.inr (.inl address))
    | .startFW address => .inr (.inr (.inr (.inl address)))
    | .data b => .inr (.inr (.inr (.inr (.inl b))))
    | .end_ => .inr (.inr (.inr (.inr (.inr (.inl ())))))
    | .clr => .inr (.inr (.inr (.inr (.inr (.inr ())))))
  invFun
    | .inl (idh, idl, len) => .startRN idh idl len
    | .inr (.inl (idh, idl, len)) => .startRW idh idl len
    | .inr (.inr (.inl address)) => .startFN address
    | .inr (.inr (.inr (.inl address))) => .startFW address
    | .inr (.inr (.inr (.inr (.inl b)))) => .data b
    | .inr (.inr (.inr (.inr (.inr (.inl ()))))) => .end_
    | .inr (.inr (.inr (.inr (.inr (.inr ()))))) => .clr
  left_inv i := by cases i <;> rfl
  right_inv x := by rcases x with _ | _ | _ | _ | _ | _ | _ <;> rfl

theorem card_bitVec (n : Nat) : Nat.card (BitVec n) = 2 ^ n := by
  rw [Nat.card_congr BitVec.equivFin.toEquiv, Nat.card_fin]

theorem card_instr : Nat.card Instr = 33685762 := by
  rw [Nat.card_congr Instr.equivOperands]
  simp only [Nat.card_sum, Nat.card_prod, card_bitVec, Nat.card_unique, Nat.reducePow, Nat.reduceMul, Nat.reduceAdd]

/-- Sending a command to its word is a bijection onto the legal words. -/
theorem encode_bijective_legal :
    Function.Bijective (fun i => ⟨encode i, i, decode_encode i⟩ : Instr → { w : Word // ∃ i, decode w = .instr i }) := by
  refine ⟨fun i j h => ?_, fun ⟨w, i, h⟩ => ⟨i, Subtype.ext (decode_eq_instr_iff.mp h)⟩⟩
  have hd := congrArg (fun w => decode w.val) h
  simpa using hd

/-- Settles O5: the legal words are the commands' words, one each. -/
theorem legalWordCount : Obligations.LegalWordCount :=
  (Nat.card_congr (Equiv.ofBijective _ encode_bijective_legal)).symm.trans card_instr

end Sys2Proof
end

section
/-!
SUPPORT. Hex strings: what decodes, to how many bytes, and the round trip (30_encoding R104).
-/

namespace Sys2Proof.Machine

theorem hexDigit_nibbleChar {n : Nat} (h : n < 16) : hexDigit (nibbleChar n) = some n := by
  have hall : ∀ k : Fin 16, hexDigit (nibbleChar k) = some k.val := by decide
  exact hall ⟨n, h⟩

/-- Two more characters decode to one more byte, where all of it decodes. -/
theorem hexDecode_cons_cons_eq_some {hi lo : Char} {cs : List Char} {d : List Byte} :
    hexDecode (hi :: lo :: cs) = some d ↔ ∃ h l bs, hexDigit hi = some h ∧ hexDigit lo = some l ∧
      hexDecode cs = some bs ∧ BitVec.ofNat 8 (16 * h + l) :: bs = d := by
  constructor
  · intro h
    rw [hexDecode] at h
    split at h
    next h' l bs hh hl hb => exact ⟨h', l, bs, hh, hl, hb, Option.some.inj h⟩
    next => cases h
  · rintro ⟨h, l, bs, hh, hl, hb, rfl⟩
    simp [hexDecode, hh, hl, hb]

theorem hexDecode_hexEncode (d : List Byte) : hexDecode (hexEncode d) = some d := by
  induction d with
  | nil => rfl
  | cons b d ih =>
    have hb := b.isLt
    refine hexDecode_cons_cons_eq_some.mpr ⟨b.toNat / 16, b.toNat % 16, d, hexDigit_nibbleChar (by omega),
      hexDigit_nibbleChar (by omega), ih, ?_⟩
    rw [Nat.div_add_mod, BitVec.ofNat_toNat, BitVec.setWidth_eq]

theorem length_of_hexDecode_eq_some {cs : List Char} {d : List Byte} (h : hexDecode cs = some d) :
    2 * d.length = cs.length := by
  induction cs using List.twoStepInduction generalizing d with
  | nil => cases h; rfl
  | singleton c => cases h
  | cons_cons hi lo cs ih _ =>
    obtain ⟨-, -, bs, -, -, hbs, rfl⟩ := hexDecode_cons_cons_eq_some.mp h
    simp only [List.length_cons, ← ih hbs]; omega

/-- A hex string decodes exactly when its length is even and every character is a hex digit. -/
theorem exists_hexDecode_iff (cs : List Char) :
    (∃ d, hexDecode cs = some d) ↔ cs.length % 2 = 0 ∧ ∀ c ∈ cs, hexDigit c ≠ none := by
  induction cs using List.twoStepInduction with
  | nil => simp [hexDecode]
  | singleton c => simp [hexDecode]
  | cons_cons hi lo cs ih _ =>
    have hlen : (hi :: lo :: cs).length % 2 = cs.length % 2 := Nat.add_mod_right cs.length 2
    calc (∃ d, hexDecode (hi :: lo :: cs) = some d)
      _ ↔ (∃ h, hexDigit hi = some h) ∧ (∃ l, hexDigit lo = some l) ∧ ∃ d, hexDecode cs = some d := by
        simp [hexDecode_cons_cons_eq_some]
      _ ↔ _ := by
        rw [ih, hlen, ← Option.ne_none_iff_exists', ← Option.ne_none_iff_exists', List.forall_mem_cons,
          List.forall_mem_cons]
        tauto

theorem hexDecode_eq_none_iff (cs : List Char) :
    hexDecode cs = none ↔ cs.length % 2 = 1 ∨ ∃ c ∈ cs, hexDigit c = none := by
  have h := not_congr (exists_hexDecode_iff cs)
  simp only [not_and_or, not_forall, not_exists, not_not, exists_prop, Nat.mod_two_ne_zero] at h
  rw [← h, Option.eq_none_iff_forall_ne_some]

/-- Settles O54: the round trip by induction on the bytes, the rest from which strings decode. -/
theorem hexStringsRoundTrip : Obligations.HexStringsRoundTrip := by
  refine ⟨hexDecode_hexEncode, fun cs h => (hexDecode_eq_none_iff cs).mpr (.inl h),
    fun cs h => (hexDecode_eq_none_iff cs).mpr (.inr h), fun cs hlen hdig => ?_⟩
  obtain ⟨d, hd⟩ := (exists_hexDecode_iff cs).mpr ⟨hlen, hdig⟩
  exact ⟨d, hd, length_of_hexDecode_eq_some hd⟩

end Sys2Proof.Machine
end

section
/-!
SUPPORT. The assembler emits words of commands and refuses exactly the ill-formed lines (30_encoding R102 to R104).
-/

namespace Sys2Proof.Machine

theorem hexOk_iff (l : Source) : l.hexOk = true ↔ ∃ d, hexDecode (sourceHex l) = some d := by
  rw [← Option.isSome_iff_exists]
  cases l <;> rfl

theorem assemble_eq_ok_iff {l : Source} {ws : List Word} :
    assemble l = .ok ws ↔ l.inRange = true ∧ ∃ d, hexDecode (sourceHex l) = some d ∧ sourceWords d l = ws := by
  by_cases hr : l.inRange = true
  · cases hd : hexDecode (sourceHex l) <;> simp [assemble, hr, hd]
  · simp [assemble, hr]

theorem exists_encode_of_mem_dataWords {d : List Byte} {w : Word} (h : w ∈ dataWords d) : ∃ i, encode i = w := by
  obtain ⟨b, -, e⟩ := List.mem_map.mp h
  exact ⟨.data b, e⟩

theorem exists_encode_of_mem_transaction {start : Instr} {d : List Byte} {w : Word} (h : w ∈ transaction start d) :
    ∃ i, encode i = w := by
  simp only [transaction, List.mem_cons, List.mem_append, List.not_mem_nil, or_false] at h
  obtain rfl | h | rfl := h
  · exact ⟨start, rfl⟩
  · exact exists_encode_of_mem_dataWords h
  · exact ⟨.end_, rfl⟩

/-- Every word of a line that is not `.word` is a command's word. -/
theorem exists_encode_of_mem_sourceWords {d : List Byte} {l : Source} {w : Word} (hl : ∀ x, l ≠ .rawWord x)
    (h : w ∈ sourceWords d l) : ∃ i, encode i = w := by
  cases l with
  | startRN | startRW | startFN | startFW | data | end_ | clr => exact ⟨_, (List.mem_singleton.mp h).symm⟩
  | rawWord x => exact absurd rfl (hl x)
  | frameN | frameW | rawN | rawW => exact exists_encode_of_mem_transaction h
  | bytes => exact exists_encode_of_mem_dataWords h

/-- Settles O55: what the assembler answers is one equivalence, and each word it emits is a command's. -/
theorem assembledWordsAreCommands : Obligations.AssembledWordsAreCommands := by
  intro l
  simp only [assemble_eq_ok_iff]
  constructor
  · simp [Source.wellFormed, hexOk_iff]
  · rintro ws ⟨-, d, -, rfl⟩ hl w hw
    obtain ⟨i, rfl⟩ := exists_encode_of_mem_sourceWords hl hw
    exact ⟨i, decode_encode i⟩

end Sys2Proof.Machine
end

section
/-!
PROOFS. The reference functions on every argument: the split's halves, where the wide functions have a value and how
large it is, and what the sums do not depend on (40_reference_functions R122 to R133).
-/

namespace Sys2Proof.Machine

/-- Settles O49: the halves are quotient and remainder by 256, and Euclidean division recovers the identifier. -/
theorem splitRecoversIdentifier : Obligations.SplitRecoversIdentifier := by
  refine ⟨fun address => ⟨splitHigh_toNat address, splitLow_toNat address, ?_⟩, by decide, by decide, by decide,
    by decide⟩
  simp only [split, splitHigh_toNat, splitLow_toNat]
  exact (Nat.div_add_mod _ _).symm

theorem exists_wide_of_lt {idh idl len : Byte} {d : List Byte}
    (h : idh.toNat + idl.toNat + len.toNat + byteSum d < 2 ^ 64) : ∃ w, wide idh idl len d = some w :=
  ⟨BitVec.ofNat 64 _, wide_eq_some.mpr ((BitVec.toNat_ofNat ..).trans (Nat.mod_eq_of_lt h))⟩

/-- The exact sum of three header bytes and at most `n` payload bytes is at most 255 a byte (R131). -/
theorem headerSum_add_byteSum_le (idh idl len : Byte) {d : List Byte} {n : Nat} (h : d.length ≤ n) :
    idh.toNat + idl.toNat + len.toNat + byteSum d ≤ 255 * (3 + n) := by
  have := idh.isLt
  have := idl.isLt
  have := len.isLt
  have := byteSum_le d
  omega

/-- The wide adapter's value is the exact sum of the two header bytes, the length and the summed set (R128). -/
theorem fromFrameWide_eq_some {address : Ident} {d : List Byte} {w : Wide} :
    fromFrameWide address d = some w ↔ (4 ≤ d.length ∧ d.length ≤ 255) ∧
      w.toNat = (splitHigh address).toNat + (splitLow address).toNat + d.length + byteSum (summedSet .wide d) := by
  rw [fromFrameWide]
  split
  · rename_i h
    rw [wide_eq_some, BitVec.toNat_ofNat, Nat.mod_eq_of_lt (by omega : d.length < 2 ^ 8), summedSet,
      Variant.trimCount_wide]
    exact (and_iff_right h).symm
  · rename_i h
    simp [h]

/-- Settles O50: every byte of an exact sum is at most 255, and `MAXLEN` is at most 255, so no sum reaches 2^64. -/
theorem wideSumBounded : Obligations.WideSumBounded := by
  refine ⟨fun idh idl len d n w hd hw => ?_, fun idh idl len d c hd => ?_, fun address d w hw => ?_⟩
  · rw [wide_eq_some.mp hw]
    exact headerSum_add_byteSum_le idh idl len hd
  · have hmax := c.maxLen_bounds
    have hsum := headerSum_add_byteSum_le idh idl len hd
    obtain ⟨w, hw⟩ := exists_wide_of_lt (show idh.toNat + idl.toNat + len.toNat + byteSum d < 2 ^ 64 by omega)
    exact ⟨w, hw, by rw [wide_eq_some.mp hw]; omega⟩
  · obtain ⟨⟨-, hle⟩, hsum⟩ := fromFrameWide_eq_some.mp hw
    have := (splitHigh address).isLt
    have := (splitLow address).isLt
    have hbytes := byteSum_le (summedSet .wide d)
    rw [summedSet, List.length_take_of_le (Nat.sub_le ..), Variant.trimCount_wide] at hbytes
    rw [summedSet, Variant.trimCount_wide] at hsum
    omega

/-- Settles O51: both primitives are one exact sum. The adapters trim differently: of the four bytes 0, 1, 0, 0 the
narrow one sums the first three and the wide one none. -/
theorem narrowIsWideModulo256 : Obligations.NarrowIsWideModulo256 := by
  refine ⟨fun idh idl len d w hw => ?_, 0, [0, 1, 0, 0], 5, 4, by decide⟩
  rw [narrow_toNat, wide_eq_some.mp hw]

/-- Settles O52: an adapter reads the length and the summed set alone. -/
theorem trimmedBytesDoNotMatter : Obligations.TrimmedBytesDoNotMatter := by
  intro address d e hlen
  constructor <;> intro htake
  · rw [fromFrame, fromFrame, htake, hlen]
  · rw [fromFrameWide, fromFrameWide, htake, hlen]

theorem byteSum_perm {d e : List Byte} (h : d.Perm e) : byteSum d = byteSum e := (h.map _).sum_eq

/-- Each primitive reads its arguments through their exact sum alone. -/
theorem narrow_wide_congr {idh idl len idh' idl' len' : Byte} {d e : List Byte}
    (h : idh.toNat + idl.toNat + len.toNat + byteSum d = idh'.toNat + idl'.toNat + len'.toNat + byteSum e) :
    narrow idh idl len d = narrow idh' idl' len' e ∧ wide idh idl len d = wide idh' idl' len' e := by
  simp only [narrow, wide, h, and_self]

/-- Settles O53: neither the permutation nor the swap changes the exact sum. -/
theorem sumIsOrderFree : Obligations.SumIsOrderFree := by
  intro idh idl len d e hperm
  have hbytes := byteSum_perm hperm
  obtain ⟨hnarrow, hwide⟩ := narrow_wide_congr (idh := idh) (idl := idl) (len := len) (congrArg _ hbytes)
  exact ⟨hnarrow, hwide, narrow_wide_congr (by omega)⟩

end Sys2Proof.Machine
end

section
/-!
PROOFS. The four start commands: their words, and what they do in each phase (30_encoding R102; 41_start_commands R150 to
R154).
-/

namespace Sys2Proof

theorem encode_startRN_toNat (idh idl len : Byte) : (encode (.startRN idh idl len)).toNat =
    0x10000000 + idh.toNat * 2 ^ 16 + idl.toNat * 2 ^ 8 + len.toNat :=
  (BitVec.toNat_ofNat ..).trans (Nat.mod_eq_of_lt (by omega))

theorem encode_startRW_toNat (idh idl len : Byte) : (encode (.startRW idh idl len)).toNat =
    0x11000000 + idh.toNat * 2 ^ 16 + idl.toNat * 2 ^ 8 + len.toNat :=
  (BitVec.toNat_ofNat ..).trans (Nat.mod_eq_of_lt (by omega))

theorem encode_startFN_toNat (address : Ident) : (encode (.startFN address)).toNat = 0x20000000 + address.toNat :=
  (BitVec.toNat_ofNat ..).trans (Nat.mod_eq_of_lt (by omega))

theorem encode_startFW_toNat (address : Ident) : (encode (.startFW address)).toNat = 0x21000000 + address.toNat :=
  (BitVec.toNat_ofNat ..).trans (Nat.mod_eq_of_lt (by omega))

end Sys2Proof

namespace Sys2Proof.Machine

/-- A start command's own rule runs in `IDLE` and `DONE`. -/
theorem State.whenAccepted_start {s : State} (hp : s.regs.phase = .idle ∨ s.regs.phase = .done) (f : State → State) :
    s.whenAccepted acceptsStart f = f s :=
  State.whenAccepted_accepted (ne_fault_of_idle_or_done hp) (acceptsStart_eq_true.mpr hp)

/-- A start command in `ACTIVE` raises `SEQ`. -/
theorem exec_start_active {i : Instr} (hi : isStart i = true) {s : State} (hp : s.regs.phase = .active) :
    exec i s = .next { s with regs := s.regs.faulted .seq } := by
  obtain ⟨v, l, idh, idl, len, h⟩ := exec_start_header hi
  rw [h, State.whenAccepted_refused (by simp [hp]) (by rw [hp]; rfl)]
  rfl

/-- A start command in `FAULT` is ignored. -/
theorem exec_start_fault {i : Instr} (hi : isStart i = true) {s : State} (hp : s.regs.phase = .fault) :
    exec i s = .next s := by
  obtain ⟨v, l, idh, idl, len, h⟩ := exec_start_header hi
  rw [h, State.whenAccepted_fault hp]

/-- Every register after an accepted start command that opens with the header terms of its layer. The wide sum is exact:
three bytes do not reach 2^64. -/
theorem exec_start_accepted_spec {i : Instr} {s : State} (v : Variant) (l : Layer) (idh idl len : Byte)
    (hi : exec i s =
      .next (s.whenAccepted acceptsStart (State.openWith v l idh idl len (l.headerTerms idh idl len))))
    (hp : s.regs.phase = .idle ∨ s.regs.phase = .done) :
    ∃ a w, exec i s = .next (s.withRegs
        { phase := .active, err := s.regs.err, var := v, layer := l, idh := idh, idl := idl, len := len, cnt := 0,
          acc8 := a, accw := w, trail := 0 }) ∧
      (v = .narrow → a.toNat = byteSum (l.headerTerms idh idl len) % 256 ∧ w = 0) ∧
      (v = .wide → w.toNat = byteSum (l.headerTerms idh idl len) ∧ a = 0) := by
  obtain ⟨a, w, h, hn, hw⟩ := State.openWith_spec v l idh idl len (l.headerTerms idh idl len) s
  have hle := byteSum_headerTerms_le l idh idl len
  refine ⟨a, w, ?_, hn, fun hv => (hw hv).imp_left (·.trans (Nat.mod_eq_of_lt (by omega)))⟩
  rw [hi, State.whenAccepted_start hp, h]

/-- Settles O7: opening with the terms `idh`, `idl`, `len` in the narrow variant. -/
theorem startRawNarrowOpens : Obligations.StartRawNarrowOpens := by
  intro idh idl len s
  refine ⟨encode_startRN_toNat idh idl len, fun hp => ?_, exec_start_active rfl, exec_start_fault rfl⟩
  obtain ⟨a, w, h, hn, -⟩ := exec_start_accepted_spec .narrow .raw idh idl len (exec_startRN idh idl len s) hp
  obtain ⟨ha, hw⟩ := hn rfl
  refine ⟨_, h, rfl, rfl, rfl, rfl, rfl, rfl, rfl, rfl, rfl, rfl, rfl, ?_, hw⟩
  simpa [add_assoc] using ha

/-- Settles O8: opening with the terms `idh`, `idl`, `len` in the wide variant. -/
theorem startRawWideOpens : Obligations.StartRawWideOpens := by
  intro idh idl len s
  refine ⟨encode_startRW_toNat idh idl len, fun hp => ?_, exec_start_active rfl, exec_start_fault rfl⟩
  obtain ⟨a, w, h, -, hwide⟩ := exec_start_accepted_spec .wide .raw idh idl len (exec_startRW idh idl len s) hp
  obtain ⟨hw, ha⟩ := hwide rfl
  refine ⟨_, h, rfl, rfl, rfl, rfl, rfl, rfl, rfl, rfl, rfl, rfl, rfl, ha, ?_,
    hw.trans_le (byteSum_headerTerms_le .raw idh idl len)⟩
  simpa [add_assoc] using hw

/-- Settles O9: opening with the two halves of the identifier as terms, in the narrow variant. -/
theorem startFrameNarrowOpens : Obligations.StartFrameNarrowOpens := by
  intro address s
  refine ⟨encode_startFN_toNat address, fun hp => ?_, exec_start_active rfl, exec_start_fault rfl⟩
  obtain ⟨a, w, h, hn, -⟩ :=
    exec_start_accepted_spec .narrow .frame (splitHigh address) (splitLow address) 0 (exec_startFN address s) hp
  obtain ⟨ha, hw⟩ := hn rfl
  refine ⟨_, h, rfl, rfl, rfl, rfl, rfl, rfl, splitHigh_toNat address, splitLow_toNat address, rfl, rfl, rfl, ?_, hw⟩
  simpa using ha

/-- Settles O10: opening with the two halves of the identifier as terms, in the wide variant. -/
theorem startFrameWideOpens : Obligations.StartFrameWideOpens := by
  intro address s
  refine ⟨encode_startFW_toNat address, fun hp => ?_, exec_start_active rfl, exec_start_fault rfl⟩
  obtain ⟨a, w, h, -, hwide⟩ :=
    exec_start_accepted_spec .wide .frame (splitHigh address) (splitLow address) 0 (exec_startFW address s) hp
  obtain ⟨hw, ha⟩ := hwide rfl
  refine ⟨_, h, rfl, rfl, rfl, rfl, rfl, rfl, splitHigh_toNat address, splitLow_toNat address, rfl, rfl, rfl, ha, ?_⟩
  simpa using hw

/-- Settles O11: the phase check decides by `PHASE` alone, and opening reads `ERR` alone. -/
theorem startPhasePrecondition : Obligations.StartPhasePrecondition := by
  intro i s hi
  refine ⟨fun hp => ?_, exec_start_active hi, exec_start_fault hi⟩
  obtain ⟨v, l, idh, idl, len, h⟩ := exec_start_header hi
  have hopen := State.openWith_opened v l idh idl len s
  refine ⟨_, by rw [h, State.whenAccepted_start hp], hopen.phase, hopen.cnt, hopen.trail, fun r hphase herr => ?_⟩
  have hp' : r.phase = .idle ∨ r.phase = .done := hphase ▸ hp
  rw [h, State.whenAccepted_start hp', State.openWith_congr (s := { s with regs := r }) herr rfl rfl]

end Sys2Proof.Machine
end

section
/-!
PROOFS. `DATA` and `END`: their words, and what they do in each phase and layer (30_encoding R102; 42_data_end_commands
R170, R171).
-/

namespace Sys2Proof

theorem encode_data_toNat (b : Byte) : (encode (.data b)).toNat = 0x30000000 + b.toNat :=
  (BitVec.toNat_ofNat ..).trans (Nat.mod_eq_of_lt (by omega))

end Sys2Proof

namespace Sys2Proof.Machine

/-! ## What each phase makes of `DATA` and `END` -/

/-- A transfer command's own rule runs in `ACTIVE`. -/
theorem State.whenAccepted_transfer {s : State} (hp : s.regs.phase = .active) (f : State → State) :
    s.whenAccepted acceptsTransfer f = f s :=
  State.whenAccepted_accepted (by simp [hp]) (acceptsTransfer_eq_true.mpr hp)

/-- A transfer command with no transaction open raises `SEQ`. -/
theorem State.whenAccepted_transfer_seq {s : State} (hp : s.regs.phase = .idle ∨ s.regs.phase = .done)
    (f : State → State) : s.whenAccepted acceptsTransfer f = s.raise .seq := by
  refine State.whenAccepted_refused (ne_fault_of_idle_or_done hp) ?_
  obtain hp | hp := hp <;> rw [hp] <;> rfl

/-- `DATA` at `MAXLEN` raises `LONG`. -/
theorem exec_data_long {s : State} (b : Byte) (hp : s.regs.phase = .active) (hc : s.regs.cnt.toNat = s.cfg.maxLen) :
    exec (.data b) s = .next (s.raise .long) := by
  rw [exec_data, State.whenAccepted_transfer hp, State.dataRule, if_pos hc]

/-- `DATA` away from `MAXLEN` takes its byte. -/
theorem exec_data_takeByte {s : State} (b : Byte) (hp : s.regs.phase = .active)
    (hc : s.regs.cnt.toNat ≠ s.cfg.maxLen) : exec (.data b) s = .next (s.withRegs (s.regs.takeByte b)) := by
  rw [exec_data, State.whenAccepted_transfer hp, State.dataRule, if_neg hc]

/-- `END` in the raw layer writes `PHASE` only. -/
theorem exec_end_raw {s : State} (hp : s.regs.phase = .active) (hl : s.regs.layer = .raw) :
    exec .end_ s = .next (s.withRegs { s.regs with phase := .done }) := by
  rw [exec_end, State.whenAccepted_transfer hp, State.endRule, hl]

/-- `END` of a frame shorter than the trim count raises `SHORT`. -/
theorem exec_end_short {s : State} (hp : s.regs.phase = .active) (hl : s.regs.layer = .frame)
    (hc : s.regs.cnt.toNat < s.regs.var.trimCount) : exec .end_ s = .next (s.raise .short) := by
  rw [exec_end, State.whenAccepted_transfer hp, State.endRule, hl]
  exact congrArg _ (if_pos hc)

/-- `END` of a frame with a full delay line closes it. -/
theorem exec_end_closeFrame {s : State} (hp : s.regs.phase = .active) (hl : s.regs.layer = .frame)
    (hc : s.regs.var.trimCount ≤ s.regs.cnt.toNat) : exec .end_ s = .next (s.withRegs s.regs.closeFrame) := by
  rw [exec_end, State.whenAccepted_transfer hp, State.endRule, hl]
  exact congrArg _ (if_neg hc.not_gt)

/-! ## What they add to the accumulators -/

theorem Regs.added_addByte (r : Regs) (x : Byte) : r.Added (r.addByte x) x.toNat :=
  ⟨fun hv => ⟨Regs.addByte_acc8_narrow hv x, Regs.addByte_accw_narrow hv x⟩,
    fun hv => ⟨Regs.addByte_accw_wide hv x, Regs.addByte_acc8_wide hv x⟩⟩

/-- `Added` looks at the accumulators only. -/
theorem Regs.Added.congr {r t u : Regs} {x : Nat} (h : r.Added t x) (h8 : u.acc8 = t.acc8) (hw : u.accw = t.accw) :
    r.Added u x := by
  rwa [Regs.Added, h8, hw]

theorem Regs.added_zero (r : Regs) : r.Added r 0 :=
  ⟨fun _ => ⟨(Nat.mod_eq_of_lt r.acc8.isLt).symm, rfl⟩, fun _ => ⟨(Nat.mod_eq_of_lt r.accw.isLt).symm, rfl⟩⟩

theorem Regs.takeByte_added {r : Regs} {b x : Byte} (hx : summedByte r b = some x) : r.Added (r.takeByte b) x.toNat :=
  have ⟨h8, hw⟩ := Regs.takeByte_acc_some hx
  (r.added_addByte x).congr h8 hw

theorem Regs.takeByte_added_zero {r : Regs} {b : Byte} (hx : summedByte r b = none) : r.Added (r.takeByte b) 0 :=
  have ⟨h8, hw⟩ := Regs.takeByte_acc_none hx
  r.added_zero.congr h8 hw

theorem Regs.closeFrame_added (r : Regs) : r.Added r.closeFrame r.cnt.toNat :=
  (r.added_addByte r.cnt).congr r.closeFrame_acc8 r.closeFrame_accw

/-! ## The two commands -/

/-- Settles O12: `takeByte` adds the byte itself in the raw layer, and in the frame layer the oldest byte of a full
delay line. -/
theorem dataTakesByte : Obligations.DataTakesByte := by
  intro b s
  refine ⟨encode_data_toNat b, fun hp => congrArg _ (State.whenAccepted_transfer_seq hp _),
    fun hp => congrArg _ (State.whenAccepted_fault hp), exec_data_long b, fun hp hc => ?_⟩
  refine ⟨_, exec_data_takeByte b hp hc, rfl, rfl, ?_⟩
  simp only [State.withRegs_regs, Regs.takeByte_phase, Regs.takeByte_err, Regs.takeByte_var, Regs.takeByte_layer,
    Regs.takeByte_idh, Regs.takeByte_idl, Regs.takeByte_len, Regs.takeByte_cnt, Regs.takeByte_trail, true_and]
  refine ⟨hp, BitVec.toNat_add .., fun hl => ?_, fun hl => ⟨?_, fun hfill => ?_, fun hfull => ?_⟩⟩
  · exact ⟨nextTrail_raw hl b, Regs.takeByte_added (summedByte_raw hl b)⟩
  · rw [nextTrail_frame hl, shiftIn_toNat]
  · exact Regs.takeByte_added_zero (by rw [summedByte_frame hl, if_neg hfill.not_ge])
  · rw [← oldestByte_toNat]
    exact Regs.takeByte_added (by rw [summedByte_frame hl, if_pos hfull])

/-- Settles O13: the raw layer writes `PHASE`, and `closeFrame` adds `CNT`. -/
theorem endClosesTransaction : Obligations.EndClosesTransaction := by
  intro s
  refine ⟨rfl, fun hp => congrArg _ (State.whenAccepted_transfer_seq hp _),
    fun hp => congrArg _ (State.whenAccepted_fault hp), exec_end_raw, exec_end_short, fun hp hl hc => ?_⟩
  exact ⟨_, exec_end_closeFrame hp hl hc, rfl, rfl, rfl, s.regs.closeFrame_err, s.regs.closeFrame_var,
    s.regs.closeFrame_layer, s.regs.closeFrame_idh, s.regs.closeFrame_idl, rfl, s.regs.closeFrame_cnt,
    s.regs.closeFrame_trail, s.regs.closeFrame_added⟩

end Sys2Proof.Machine
end

section
/-!
PROOFS. The run of a frame up to and with its `END`: the delay line leaves the document's slice in the sum
(42_data_end_commands R172).
-/

namespace Sys2Proof.Machine

/-- The registers `r` belong to a transaction with this variant, layer and header. -/
def Regs.HasHeader (r : Regs) (v : Variant) (l : Layer) (idh idl len : Byte) : Prop :=
  r.var = v ∧ r.layer = l ∧ r.idh = idh ∧ r.idl = idl ∧ r.len = len

section
variable {v : Variant} {l : Layer} {idh idl len : Byte} {s t : State}

/-- `DATA` writes no header register, in any phase (10_state R40). -/
theorem exec_data_hasHeader {b : Byte} (hs : s.regs.HasHeader v l idh idl len) (h : exec (.data b) s = .next t) :
    t.regs.HasHeader v l idh idl len := by
  obtain ⟨hv, hl, hidh, hidl, hlen⟩ := hs
  obtain ⟨hv', hl', hidh', hidl', -, hlen', -⟩ := writersOfEachRegister (.data b) s t h rfl nofun
  have hlen'' : t.regs.len = s.regs.len := not_not.mp fun hne => nomatch (hlen' hne).1
  exact ⟨hv'.trans hv, hl'.trans hl, hidh'.trans hidh, hidl'.trans hidl, hlen''.trans hlen⟩

theorem runWords_dataWords_hasHeader {d : List Byte} (hs : s.regs.HasHeader v l idh idl len)
    (h : runWords s (dataWords d) = .next t) : t.regs.HasHeader v l idh idl len := by
  induction d generalizing s with
  | nil => cases (runWords_nil s).symm.trans h; exact hs
  | cons b d ih =>
    obtain ⟨u, hu, -⟩ := exec_next (.data b) s
    exact ih (exec_data_hasHeader hs hu) ((runWords_encode_cons hu (dataWords d)).symm.trans h)

/-- A start command that opens with the header terms of its layer, and then a payload: the transaction is open with that
header and holds the payload's partial sum (10_state R37). -/
theorem runWords_start_dataWords {i : Instr} {d : List Byte}
    (hi : exec i s = .next (s.whenAccepted acceptsStart (State.openWith v l idh idl len (l.headerTerms idh idl len))))
    (hp : s.regs.phase = .idle ∨ s.regs.phase = .done) (hd : d.length ≤ s.cfg.maxLen) :
    ∃ t, runWords s (encode i :: dataWords d) = .next t ∧ t.regs.phase = .active ∧
      t.regs.HasHeader v l idh idl len ∧ t.regs.PartialSumOf d := by
  rw [State.whenAccepted_start hp] at hi
  have hopen := State.openWith_opened v l idh idl len s
  have hheader : (s.openWith v l idh idl len (l.headerTerms idh idl len)).regs.HasHeader v l idh idl len := by
    obtain ⟨a, w, hspec, -, -⟩ := State.openWith_spec v l idh idl len (l.headerTerms idh idl len) s
    rw [hspec]
    exact ⟨rfl, rfl, rfl, rfl, rfl⟩
  obtain ⟨t, ht, hphase, hsum⟩ := runWords_dataWords hopen.phase hopen.partialSumOf_nil
    ((Nat.zero_add _).trans_le hd)
  rw [runWords_encode_cons hi]
  exact ⟨t, ht, hphase, runWords_dataWords_hasHeader hheader ht, hsum⟩

end

/-- `END` on the partial sum of a frame adds the length to it. -/
theorem Regs.PartialSumOf.closeFrame_holds {r : Regs} {d : List Byte} (h : r.PartialSumOf d) (hl : r.layer = .frame) :
    r.closeFrame.Holds (r.idh.toNat + r.idl.toNat + d.length + byteSum (summedSet r.var d)) := by
  obtain ⟨hcnt, -, hframe⟩ := h
  obtain ⟨hsum, -⟩ := hframe hl
  have hbytes := byteSum_le (summedSet r.var d)
  have hlen := summedSet_length_le r.var d
  rw [hcnt, add_right_comm]
  exact (hsum.addByte r.cnt (by omega)).congr (by simp) r.closeFrame_acc8 r.closeFrame_accw

/-- `END` on the partial sum of a frame leaves the trailing field in `TRAIL`. -/
theorem Regs.PartialSumOf.closeFrame_trailOf {r : Regs} {d : List Byte} (h : r.PartialSumOf d) (hl : r.layer = .frame)
    (hc : r.var.trimCount ≤ r.cnt.toNat) : trailOf r.var d = some r.closeFrame.trail := by
  obtain ⟨-, -, -, -, -, htrail⟩ := h.resultOf_closeFrame hl hc
  simpa using (htrail (by simpa using hl)).2

/-- The run of a frame of either variant. -/
theorem runWords_frame_sumsTheSlice {i : Instr} {s : State} {v : Variant} {address : Ident} {d : List Byte}
    (hi : exec i s = .next (s.whenAccepted acceptsStart (State.openFrame v address)))
    (hp : s.regs.phase = .idle ∨ s.regs.phase = .done) (hd : d.length ≤ s.cfg.maxLen) :
    ∃ t, runWords s (encode i :: dataWords d) = .next t ∧ t.regs.phase = .active ∧ t.regs.var = v ∧
      t.regs.layer = .frame ∧ t.regs.cnt.toNat = d.length ∧
      t.regs.Holds (address.toNat / 256 + address.toNat % 256 + byteSum (summedSet v d)) ∧
      t.regs.trail.toNat = bigEndian (lastBytes v.trimCount d) ∧
      (v.trimCount ≤ d.length → ∃ u, exec .end_ t = .next u ∧ u.regs.phase = .done ∧
        trailOf v d = some u.regs.trail ∧
        u.regs.Holds (address.toNat / 256 + address.toNat % 256 + d.length + byteSum (summedSet v d))) := by
  obtain ⟨t, ht, hphase, ⟨rfl, hl, hidh, hidl, -⟩, hpart⟩ := runWords_start_dataWords hi hp hd
  have hclosed := hpart.closeFrame_holds hl
  have ⟨hcnt, _, hframe⟩ := hpart
  obtain ⟨hsum, htrail⟩ := hframe hl
  rw [hidh, hidl, splitHigh_toNat, splitLow_toNat] at hsum hclosed
  refine ⟨t, ht, hphase, rfl, hl, hcnt.symm, hsum, htrail, fun hc => ?_⟩
  rw [hcnt] at hc
  exact ⟨_, exec_end_closeFrame hphase hl hc, rfl, hpart.closeFrame_trailOf hl hc, hclosed⟩

/-- Settles O47: the partial sum of the payload, before `END` and after it. -/
theorem delayLineSumsTheSlice : Obligations.DelayLineSumsTheSlice := by
  intro s v address d start hp hd
  cases v with
  | narrow => exact runWords_frame_sumsTheSlice (exec_startFN address s) hp hd
  | wide => exact runWords_frame_sumsTheSlice (exec_startFW address s) hp hd

end Sys2Proof.Machine
end

section
/-!
PROOFS. `CLR` (43_control_commands R190), and the step table: its phase column, and that every step is a next state (R193;
70_reset_and_hazards R264).
-/

namespace Sys2Proof

/-- A word with `op = 5` and a reserved bit set is illegal (30_encoding R98 (e)). -/
theorem decode_clr_reserved {w : Word} (hop : w.toNat / 2 ^ 28 = 5) (h : w.toNat % 2 ^ 28 ≠ 0) :
    decode w = .illegal .zeroBits :=
  (decode_opcode_five hop).trans (decodeZero_reserved h .clr)

end Sys2Proof

namespace Sys2Proof.Machine

/-! ## The phase after each command -/

/-- After the phase check CORE is where the command's own rule leaves it, or in `FAULT`. -/
theorem State.whenAccepted_phase {acc : Phase → Bool} (hfault : acc .fault = false) (f : State → State) (s : State) :
    (s.whenAccepted acc f).regs.phase = if acc s.regs.phase = true then (f s).regs.phase else .fault := by
  obtain ⟨hp, e⟩ | ⟨-, ha, e⟩ | ⟨-, ha, e⟩ := State.whenAccepted_cases acc f s
  · rw [e, hp, hfault]; rfl
  · rw [e, if_pos ha]
  · rw [e, ha]; rfl

theorem State.dataRule_phase {s : State} (b : Byte) (hp : s.regs.phase = .active) :
    (s.dataRule b).regs.phase = if s.regs.cnt.toNat = s.cfg.maxLen then .fault else .active := by
  obtain ⟨hc, e⟩ | ⟨hc, e⟩ := s.dataRule_cases b
  · rw [e, if_pos hc]; rfl
  · rw [e, if_neg hc]; exact (s.regs.takeByte_phase b).trans hp

theorem State.endRule_phase (s : State) : s.endRule.regs.phase =
    if s.regs.layer = .frame ∧ s.regs.cnt.toNat < s.regs.var.trimCount then .fault else .done := by
  obtain ⟨hl, e⟩ | ⟨hl, hc, e⟩ | ⟨-, hc, e⟩ := s.endRule_cases
  · rw [e, if_neg (by simp [hl])]; rfl
  · rw [e, if_pos ⟨hl, hc⟩]; rfl
  · rw [e, if_neg fun h => hc.not_gt h.2]; rfl

theorem State.illegalWord_phase (s : State) : s.illegalWord.regs.phase = .fault := by
  by_cases hp : s.regs.phase = .fault
  · rw [State.illegalWord_fault hp, hp]
  · rw [State.illegalWord_of_ne hp]; rfl

/-! ## The rows of the table, by the phases that accept the command -/

theorem phaseTable_start {i : Instr} (hi : isStart i = true) (r : Regs) (m : Nat) :
    phaseTable r m (.instr i) = if acceptsStart r.phase = true then .active else .fault := by
  cases i with
  | startRN | startRW | startFN | startFW => cases hp : r.phase <;> simp [phaseTable, acceptsStart, hp]
  | data | end_ | clr => cases hi

theorem phaseTable_data (r : Regs) (m : Nat) (b : Byte) : phaseTable r m (.instr (.data b)) =
    if acceptsTransfer r.phase = true then (if r.cnt.toNat = m then .fault else .active) else .fault := by
  cases hp : r.phase <;> simp [phaseTable, acceptsTransfer, hp]

theorem phaseTable_end (r : Regs) (m : Nat) : phaseTable r m (.instr .end_) =
    if acceptsTransfer r.phase = true then
      (if r.layer = .frame ∧ r.cnt.toNat < r.var.trimCount then .fault else .done)
    else .fault := by
  cases hp : r.phase <;> simp [phaseTable, acceptsTransfer, hp]

/-- Every command leaves the phase of its row. -/
theorem exec_phase {i : Instr} {s t : State} (h : exec i s = .next t) :
    t.regs.phase = phaseTable s.regs s.cfg.maxLen (.instr i) := by
  cases hi : isStart i with
  | true =>
    obtain ⟨v, l, idh, idl, len, hs⟩ := exec_start_header hi
    cases (hs s).symm.trans h
    rw [State.whenAccepted_phase rfl, phaseTable_start hi, (State.openWith_opened v l idh idl len s).phase]
  | false =>
    cases i with
    | data b =>
      cases h
      rw [State.whenAccepted_phase rfl, phaseTable_data]
      exact if_ctx_congr Iff.rfl (fun ha => State.dataRule_phase b (acceptsTransfer_eq_true.mp ha)) fun _ => rfl
    | end_ =>
      cases h
      rw [State.whenAccepted_phase rfl, phaseTable_end, State.endRule_phase]
    | clr => cases h; rfl
    | startRN | startRW | startFN | startFW => cases hi

/-! ## Every step is a next state -/

/-- A step takes one edge from the host's list, whatever that edge asks. -/
theorem step_takes_edge (s : State) : ∃ t, step s = .next t ∧ t.cfg = s.cfg ∧ t.inputs = s.inputs.tail := by
  cases hin : s.inputs with
  | nil => exact ⟨s, nothingPresentedNothingChanges s hin, rfl, hin⟩
  | cons p rest =>
    cases hp : p.edge with
    | reset => exact ⟨_, step_of_reset_edge hin hp, rfl, rfl⟩
    | quiet => exact ⟨_, step_of_quiet_edge hin hp, rfl, rfl⟩
    | command cw =>
      obtain ⟨t, h, hcfg, hins, -⟩ := step_presentFirst (s.withInputs rest) cw
      exact ⟨t, (step_of_command_edge hin hp).trans h, hcfg, hins⟩

/-! ## The two statements -/

/-- Settles O19: a command leaves the phase of its row, and an illegal word leaves `FAULT`. -/
theorem phaseStepTable : Obligations.PhaseStepTable := by
  refine ⟨fun s cw => ?_, step_takes_edge⟩
  cases hd : decode cw with
  | instr i =>
    obtain ⟨t, h, -⟩ := exec_next i s
    exact ⟨t, (step_presentFirst_of_instr hd s).trans h, exec_phase h⟩
  | illegal why => exact ⟨_, step_presentFirst_of_illegal hd s, s.illegalWord_phase⟩

/-- Settles O14: `CLR` writes the reset registers without a phase check; every other word with `op = 5` has a reserved
bit set. -/
theorem clrReturnsToReset : Obligations.ClrReturnsToReset := by
  refine ⟨rfl, fun s => ⟨s.clear, exec_clr s, rfl, rfl, rfl, rfl, rfl, rfl, rfl, rfl, rfl, rfl, rfl, rfl, rfl, rfl⟩,
    fun w s hop h => ?_⟩
  have hd : decode w = .illegal .zeroBits := decode_clr_reserved hop h
  refine ⟨⟨_, hd⟩, fun hp => ?_⟩
  rw [step_presentFirst_of_illegal hd, State.illegalWord_fault hp]

end Sys2Proof.Machine
end

section
/-!
SUPPORT. Runs in two parts, and runs that end in `FAULT` whatever follows (44_transactions R210; 60_exceptions R227;
70_reset_and_hazards R271).
-/

namespace Sys2Proof

/-- No other command has the word of `CLR`. -/
theorem encode_ne_clr {i : Instr} (hi : i ≠ .clr) : encode i ≠ 0x50000000 := by
  intro h
  have hclr : decode 0x50000000 = .instr .clr := decode_encode .clr
  cases (decode_eq_instr_iff.mpr h).symm.trans hclr
  exact hi rfl

end Sys2Proof

namespace Sys2Proof.Machine

theorem ne_clr_of_mem_dataWords_end {d : List Byte} {w : Word} (h : w ∈ dataWords d ++ [encode .end_]) :
    w ≠ 0x50000000 := by
  obtain h | h := List.mem_append.mp h
  · obtain ⟨b, -, rfl⟩ := List.mem_map.mp h
    exact encode_ne_clr nofun
  · rw [List.mem_singleton.mp h]
    exact encode_ne_clr nofun

/-- No word of a transaction is `CLR`. -/
theorem ne_clr_of_mem_transaction {i : Instr} (hi : isStart i = true) {d : List Byte} {w : Word}
    (h : w ∈ transaction i d) : w ≠ 0x50000000 := by
  obtain rfl | h := List.mem_cons.mp h
  · exact encode_ne_clr (by rintro rfl; cases hi)
  · exact ne_clr_of_mem_dataWords_end h

/-- A run of two lists of words is the run of the second from where the first ends. -/
theorem runWords_append {s t : State} {ws : List Word} (h : runWords s ws = .next t) (vs : List Word) :
    runWords s (ws ++ vs) = runWords t vs := by
  induction ws generalizing s with
  | nil => cases (runWords_nil s).symm.trans h; rfl
  | cons w ws ih =>
    obtain ⟨u, hu, -⟩ := step_presentFirst s w
    rw [runWords_cons hu] at h
    rw [List.cons_append, runWords_cons hu, ih h]

/-- Every command but `CLR` is ignored in `FAULT`. -/
theorem exec_fault {i : Instr} (hi : i ≠ .clr) {s : State} (hp : s.regs.phase = .fault) : exec i s = .next s := by
  cases i with
  | startRN | startRW | startFN | startFW => exact exec_start_fault rfl hp
  | data | end_ => exact congrArg _ (State.whenAccepted_fault hp)
  | clr => exact absurd rfl hi

/-- Every word but that of `CLR` is ignored in `FAULT`, be it a command or illegal. -/
theorem step_presentFirst_fault {s : State} {w : Word} (hp : s.regs.phase = .fault) (hw : w ≠ 0x50000000) :
    step (s.presentFirst w) = .next s := by
  cases hd : decode w with
  | instr i =>
    have hi : i ≠ .clr := by
      rintro rfl
      exact hw (decode_eq_instr_iff.mp hd).symm
    rw [step_presentFirst_of_instr hd, exec_fault hi hp]
  | illegal why => rw [step_presentFirst_of_illegal hd, State.illegalWord_fault hp]

/-- A run without `CLR` from `FAULT` changes no register. -/
theorem runWords_fault {s : State} {ws : List Word} (hp : s.regs.phase = .fault) (hws : ∀ w ∈ ws, w ≠ 0x50000000) :
    runWords s ws = .next (s.withInputs []) := by
  induction ws with
  | nil => exact runWords_nil s
  | cons w ws ih =>
    rw [List.forall_mem_cons] at hws
    rw [runWords_cons (step_presentFirst_fault hp hws.1), ih hws.2]

theorem State.withInputs_eq_self {s : State} {l : List PortIn} (h : s.inputs = l) : s.withInputs l = s := h ▸ rfl

/-- The first fault of a run decides its end: what follows without `CLR` is ignored. -/
theorem runWords_of_raise {s t : State} {ws : List Word} {w : Word} {code : ErrCode} (h : runWords s ws = .next t)
    (hw : step (t.presentFirst w) = .next (t.raise code)) {rest : List Word} (hrest : ∀ x ∈ rest, x ≠ 0x50000000) :
    runWords s (ws ++ w :: rest) = .next (t.raise code) := by
  obtain ⟨u, hu, -, hins⟩ := runWords_next ws s
  cases hu.symm.trans h
  rw [runWords_append h, runWords_cons hw, runWords_fault rfl hrest,
    State.withInputs_eq_self (s := t.raise code) hins]

/-- A run changes nothing but the registers and the host's list. -/
theorem runWords_eq_withRegs {s t : State} {ws : List Word} (h : runWords s ws = .next t) :
    t = { s with inputs := [], regs := t.regs } := by
  obtain ⟨u, hu, hcfg, hins⟩ := runWords_next ws s
  cases hu.symm.trans h
  rw [← hcfg, ← hins]

end Sys2Proof.Machine
end

section
/-!
PROOFS. Runs and their words (44_transactions R210, R211), and transactions that end in a fault by a word put into them
(R205, R206).
-/

namespace Sys2Proof.Machine

/-- Settles O48: one step a word, and the standing is the phase. -/
theorem runsUseUpTheirWords : Obligations.RunsUseUpTheirWords := by
  refine ⟨fun s ws => ?_, fun i d => by simp [transaction, dataWords], fun r => ?_⟩
  · obtain ⟨t, h, hcfg, hins⟩ := runWords_next ws s
    exact ⟨t, h, h, hins, hcfg⟩
  · cases hp : r.phase <;> simp [Regs.runStatus, Regs.outputs, hp]

/-- The words of a transaction, cut somewhere in its payload. -/
theorem transaction_append (i : Instr) (d e : List Byte) :
    transaction i (d ++ e) = (encode i :: dataWords d) ++ (dataWords e ++ [encode .end_]) := by
  simp [transaction, dataWords]

/-- Settles O42: after `MAXLEN` bytes the next `DATA` raises `LONG`. -/
theorem longPayloadFaults : Obligations.LongPayloadFaults := by
  intro s i d hi hp hd
  have hlen : (d.take s.cfg.maxLen).length = s.cfg.maxLen := List.length_take_of_le hd.le
  obtain ⟨t, ht, hphase, hcnt, -⟩ := partialSumAfterData s i _ hi hp hlen.le
  refine ⟨t, ht, hphase, ?_⟩
  have hfull : t.regs.cnt.toNat = t.cfg.maxLen := by
    rw [runWords_eq_withRegs ht]
    exact hcnt.symm.trans hlen
  have hlong : step (t.presentFirst (encode (.data d[s.cfg.maxLen]))) = .next (t.raise .long) :=
    (step_presentFirst_encode t _).trans (exec_data_long _ hphase hfull)
  have hsplit : transaction i d = (encode i :: dataWords (d.take s.cfg.maxLen)) ++
      encode (.data d[s.cfg.maxLen]) :: (dataWords (d.drop (s.cfg.maxLen + 1)) ++ [encode .end_]) := by
    have hdrop := List.take_append_drop s.cfg.maxLen d
    rw [List.drop_eq_getElem_cons hd] at hdrop
    exact (congrArg (transaction i) hdrop.symm).trans (transaction_append i _ _)
  rw [hsplit]
  exact runWords_of_raise ht hlong fun _ => ne_clr_of_mem_dataWords_end

/-- Settles O43: each word meets the open transaction in `ACTIVE`, and after `CLR` CORE is in `IDLE`. -/
theorem interruptedTransaction : Obligations.InterruptedTransaction := by
  intro s i d w rest hi hp hd hrest
  obtain ⟨t, ht, hphase, -⟩ := partialSumAfterData s i d hi hp hd
  have hclr : runWords s (encode i :: (dataWords d ++ [encode .clr])) = .next (t.clear.withInputs []) :=
    (runWords_append ht _).trans ((runWords_encode_cons (exec_clr t) []).trans (runWords_nil _))
  refine ⟨fun ⟨why, hw⟩ => ⟨t.raise .illegal, runWords_of_raise ht ?_ hrest, rfl, rfl⟩,
    fun ⟨j, hj, hw⟩ => ⟨t.raise .seq, runWords_of_raise ht ?_ hrest, rfl, rfl⟩, ⟨_, hclr, rfl⟩,
    fun hw => ⟨(t.clear.withInputs []).raise .seq, ?_, rfl⟩⟩
  · rw [step_presentFirst_of_illegal hw, State.illegalWord_of_ne (by simp [hphase])]
  · exact (step_presentFirst_of_instr hw t).trans (exec_start_active hj hphase)
  · rw [List.append_cons, ← List.cons_append]
    refine runWords_of_raise hclr ?_ hrest
    obtain hw | ⟨b, hw⟩ := hw <;>
      exact (step_presentFirst_of_instr hw _).trans (congrArg _ (State.whenAccepted_transfer_seq (.inl rfl) _))

end Sys2Proof.Machine
end

section
/-!
PROOFS. One transaction after another (44_transactions R207, R208).
-/

namespace Sys2Proof.Machine

/-- Every run keeps the invariant. -/
theorem State.Inv.runWords {s t : State} (hs : s.Inv) {ws : List Word} (h : runWords s ws = .next t) : t.Inv :=
  run_keeps (fun _ _ => State.Inv.step) ws.length (s := s.presenting ws) hs h

/-- A run that begins with an accepted start command does not read the registers before it. -/
theorem runWords_start_congr {i : Instr} (hi : isStart i = true) {s s' : State}
    (hp : s.regs.phase = .idle ∨ s.regs.phase = .done) (hp' : s'.regs.phase = .idle ∨ s'.regs.phase = .done)
    (herr : s.regs.ErrIffFault) (herr' : s'.regs.ErrIffFault) (hcfg : s.cfg = s'.cfg) (ws : List Word) :
    runWords s (encode i :: ws) = runWords s' (encode i :: ws) := by
  obtain ⟨t, h, h'⟩ :=
    noStateCrossesTransaction i (s.withInputs []) (s'.withInputs []) hi hp hp' herr herr' hcfg rfl
  exact (runWords_encode_cons h ws).trans (runWords_encode_cons h' ws).symm

/-- A run that begins with an accepted start command ends with `ERR` nonzero only in `FAULT`. -/
theorem runWords_start_errIffFault {i : Instr} (hi : isStart i = true) {s t : State}
    (hp : s.regs.phase = .idle ∨ s.regs.phase = .done) (herr : s.regs.ErrIffFault) {ws : List Word}
    (h : runWords s (encode i :: ws) = .next t) : t.regs.ErrIffFault := by
  obtain ⟨u, hu, -, hopen⟩ := exec_start_opens hi hp
  have hinv : u.Inv := hopen.inv (herr.err_eq_none (ne_fault_of_idle_or_done hp))
  rw [runWords_encode_cons hu] at h
  obtain ⟨⟨-, ⟨ht, -⟩, -⟩, -⟩ := hinv.runWords h
  exact ht

/-- Settles O44: the state after the start command is the same, and so is what the words after it make of it. -/
theorem transactionIndependentOfHistory : Obligations.TransactionIndependentOfHistory := by
  intro s s' i d hi hp hp' herr herr' hcfg
  obtain ⟨t, ht, htcfg, -⟩ := runWords_next (transaction i d) s
  refine ⟨t, ht, (runWords_start_congr hi hp hp' herr herr' hcfg _).symm.trans ht, fun hdone => ?_⟩
  have hterr := runWords_start_errIffFault hi hp herr ht
  exact (runWords_start_congr hi (.inr hdone) hp hterr herr htcfg _).trans ht

/-- Settles O45: a start command is accepted in `DONE` and after `CLR`, and ignored in `FAULT`. -/
theorem backToBackTransactions : Obligations.BackToBackTransactions := by
  intro s i d hi
  refine ⟨fun hp => ?_, fun hp => ⟨runWords_fault hp fun _ => ne_clr_of_mem_transaction hi, ?_,
    runWords_encode_cons (exec_clr s) (transaction i d)⟩⟩
  · obtain ⟨t, ht, -, hopen⟩ := exec_start_opens hi (.inr hp)
    exact ⟨t, (step_presentFirst_encode s i).trans ht, hopen.phase⟩
  · obtain ⟨t, ht, -, hopen⟩ := exec_start_opens hi (s := s.clear) (.inl rfl)
    refine ⟨t.withInputs [], ?_, hopen.phase⟩
    rw [runWords_encode_cons (exec_clr s), runWords_encode_cons ht, runWords_nil]

end Sys2Proof.Machine
end

section
/-!
PROOFS. What a whole transaction leaves in the registers (44_transactions R200 to R204, R209): the registers of the open
transaction with its payload, and what `END` makes of them.
-/

namespace Sys2Proof.Machine

/-! ## The registers a transaction does not write -/

/-- The registers that neither `DATA` nor an accepted `END` writes hold what the start command left: `ERR` is `e`, and the
accumulator that is not selected and the delay line of the raw layer are 0 (10_state R40). -/
def Regs.KeepsUnused (e : ErrCode) (r : Regs) : Prop :=
  r.err = e ∧ (r.var = .narrow → r.accw = 0) ∧ (r.var = .wide → r.acc8 = 0) ∧ (r.layer = .raw → r.trail = 0)

theorem Regs.Opened.keepsUnused {r t : Regs} (h : r.Opened t) : t.KeepsUnused r.err :=
  ⟨h.err, h.accw_narrow, h.acc8_wide, fun _ => h.trail⟩

theorem Regs.KeepsUnused.takeByte {e : ErrCode} {r : Regs} (h : r.KeepsUnused e) (b : Byte) :
    (r.takeByte b).KeepsUnused e := by
  obtain ⟨herr, haccw, hacc8, htrail⟩ := h
  refine ⟨(r.takeByte_err b).trans herr, fun hv => ?_, fun hv => ?_, fun hl => ?_⟩
  · rw [Regs.takeByte_var] at hv; rw [Regs.takeByte_accw_narrow hv, haccw hv]
  · rw [Regs.takeByte_var] at hv; rw [Regs.takeByte_acc8_wide hv, hacc8 hv]
  · rw [Regs.takeByte_layer] at hl; rw [Regs.takeByte_trail, nextTrail_raw hl, htrail hl]

theorem Regs.KeepsUnused.closeFrame {e : ErrCode} {r : Regs} (h : r.KeepsUnused e) (hl : r.layer = .frame) :
    r.closeFrame.KeepsUnused e := by
  obtain ⟨herr, haccw, hacc8, -⟩ := h
  refine ⟨r.closeFrame_err.trans herr, fun hv => ?_, fun hv => ?_, by simp [hl]⟩
  · rw [Regs.closeFrame_var] at hv; rw [Regs.closeFrame_accw, Regs.addByte_accw_narrow hv, haccw hv]
  · rw [Regs.closeFrame_var] at hv; rw [Regs.closeFrame_acc8, Regs.addByte_acc8_wide hv, hacc8 hv]

theorem runWords_dataWords_keepsUnused {e : ErrCode} {s t : State} {d : List Byte} (hs : s.regs.KeepsUnused e)
    (hp : s.regs.phase = .active) (hd : s.regs.cnt.toNat + d.length ≤ s.cfg.maxLen)
    (h : runWords s (dataWords d) = .next t) : t.regs.KeepsUnused e := by
  induction d generalizing s with
  | nil => cases (runWords_nil s).symm.trans h; exact hs
  | cons b d ih =>
    have hmax := s.cfg.maxLen_bounds
    rw [List.length_cons] at hd
    have hcnt : (s.regs.takeByte b).cnt.toNat = s.regs.cnt.toNat + 1 := toNat_add_one_of_lt (by omega)
    refine ih (s := s.withRegs (s.regs.takeByte b)) (hs.takeByte b) (by simpa using hp) ?_
      ((runWords_encode_cons (exec_data_active b hp (by omega)) (dataWords d)).symm.trans h)
    rw [State.withRegs_regs, State.withRegs_cfg, hcnt]
    omega

/-! ## The runs -/

section
variable {i : Instr} {s : State} {v : Variant} {l : Layer} {idh idl len : Byte} {d : List Byte}

/-- A start command and a payload: every register of the open transaction. -/
theorem runWords_open
    (hi : exec i s = .next (s.whenAccepted acceptsStart (State.openWith v l idh idl len (l.headerTerms idh idl len))))
    (hp : s.regs.phase = .idle ∨ s.regs.phase = .done) (hd : d.length ≤ s.cfg.maxLen) :
    ∃ t, runWords s (encode i :: dataWords d) = .next t ∧ t.regs.phase = .active ∧
      t.regs.HasHeader v l idh idl len ∧ t.regs.PartialSumOf d ∧ t.regs.KeepsUnused s.regs.err := by
  obtain ⟨t, ht, hphase, hheader, hsum⟩ := runWords_start_dataWords hi hp hd
  refine ⟨t, ht, hphase, hheader, hsum, ?_⟩
  rw [State.whenAccepted_start hp] at hi
  rw [runWords_encode_cons hi] at ht
  have hopen := State.openWith_opened v l idh idl len s
  exact runWords_dataWords_keepsUnused hopen.keepsUnused hopen.phase
    (by rw [hopen.cnt]; exact (Nat.zero_add _).trans_le hd) ht

/-- A transaction is its start command and payload, and then `END`. -/
theorem runWords_transaction {t : State} {r : Regs} (ht : runWords s (encode i :: dataWords d) = .next t)
    (hend : exec .end_ t = .next (t.withRegs r)) :
    runWords s (transaction i d) = .next { s with inputs := [], regs := r } := by
  have happ : runWords s (transaction i d) = runWords t [encode .end_] := runWords_append ht [encode .end_]
  rw [happ, runWords_encode_cons hend, runWords_nil, runWords_eq_withRegs ht]
  rfl

/-- A whole raw transaction. -/
theorem runWords_raw (hi : exec i s = .next (s.whenAccepted acceptsStart (State.openRaw v idh idl len)))
    (hp : s.regs.phase = .idle ∨ s.regs.phase = .done) (hd : d.length ≤ s.cfg.maxLen) :
    ∃ r, runWords s (transaction i d) = .next { s with inputs := [], regs := r } ∧ r.phase = .done ∧
      r.HasHeader v .raw idh idl len ∧ r.ResultOf d ∧ r.KeepsUnused s.regs.err := by
  obtain ⟨t, ht, hphase, hheader, hsum, hunused⟩ := runWords_open (l := .raw) hi hp hd
  have ⟨_, hl, _⟩ := hheader
  exact ⟨_, runWords_transaction ht (exec_end_raw hphase hl), rfl, hheader, hsum.resultOf_closedRaw hl, hunused⟩

/-- A whole frame transaction with at least `T` bytes. -/
theorem runWords_frame {address : Ident}
    (hi : exec i s = .next (s.whenAccepted acceptsStart (State.openFrame v address)))
    (hp : s.regs.phase = .idle ∨ s.regs.phase = .done) (hT : v.trimCount ≤ d.length) (hd : d.length ≤ s.cfg.maxLen) :
    ∃ r, runWords s (transaction i d) = .next { s with inputs := [], regs := r } ∧ r.phase = .done ∧
      r.HasHeader v .frame (splitHigh address) (splitLow address) (BitVec.ofNat 8 d.length) ∧ r.ResultOf d ∧
      r.KeepsUnused s.regs.err := by
  obtain ⟨t, ht, hphase, ⟨rfl, hl, hidh, hidl, -⟩, hsum, hunused⟩ := runWords_open (l := .frame) hi hp hd
  have ⟨hcnt, _⟩ := hsum
  have hc : t.regs.var.trimCount ≤ t.regs.cnt.toNat := hT.trans_eq hcnt
  have hlen : t.regs.cnt = BitVec.ofNat 8 d.length := (BitVec.toNat_eq_nat.mp hcnt.symm).2
  exact ⟨_, runWords_transaction ht (exec_end_closeFrame hphase hl hc), rfl,
    ⟨t.regs.closeFrame_var, t.regs.closeFrame_layer.trans hl, t.regs.closeFrame_idh.trans hidh,
      t.regs.closeFrame_idl.trans hidl, hlen⟩, hsum.resultOf_closeFrame hl hc, hunused.closeFrame hl⟩

/-- A whole frame transaction with fewer than `T` bytes: `SHORT`, and the rest as before `END`, with nothing summed. -/
theorem runWords_frame_short {address : Ident}
    (hi : exec i s = .next (s.whenAccepted acceptsStart (State.openFrame v address)))
    (hp : s.regs.phase = .idle ∨ s.regs.phase = .done) (hT : d.length < v.trimCount) (hd : d.length ≤ s.cfg.maxLen) :
    ∃ r : Regs, runWords s (transaction i d) = .next { s with inputs := [], regs := r.faulted .short } ∧
      r.HasHeader v .frame (splitHigh address) (splitLow address) 0 ∧ d.length = r.cnt.toNat ∧
      r.Holds (address.toNat / 256 + address.toNat % 256) ∧ r.trail.toNat = bigEndian d ∧
      r.KeepsUnused s.regs.err := by
  obtain ⟨t, ht, hphase, hheader, ⟨hcnt, -, hframe⟩, hunused⟩ := runWords_open (l := .frame) hi hp hd
  have ⟨hv, hl, hidh, hidl, _⟩ := hheader
  obtain ⟨hsum, htrail⟩ := hframe hl
  rw [hv, lastBytes_of_length_le hT.le] at htrail
  have hnone : summedSet v d = [] := by rw [summedSet, Nat.sub_eq_zero_of_le hT.le, List.take_zero]
  rw [hidh, hidl, splitHigh_toNat, splitLow_toNat, hv, hnone, byteSum_nil, add_zero] at hsum
  have hc : t.regs.cnt.toNat < t.regs.var.trimCount := by rwa [← hcnt, hv]
  exact ⟨t.regs, runWords_transaction ht (exec_end_short hphase hl hc), hheader, hcnt, hsum, htrail, hunused⟩

/-- The end of a run, every register written out: `CNT` is the number of bytes. -/
theorem runWords_eq_mk {ws : List Word} {r : Regs} {p : Phase} {e : ErrCode} {a : Byte} {w : Wide} {f : Word}
    (h : runWords s ws = .next { s with inputs := [], regs := r }) (hheader : r.HasHeader v l idh idl len)
    (hp : r.phase = p) (he : r.err = e) (hd : d.length = r.cnt.toNat) (ha : r.acc8 = a) (hw : r.accw = w)
    (hf : r.trail = f) :
    runWords s ws = .next { s with
      inputs := []
      regs := { phase := p, err := e, var := v, layer := l, idh := idh, idl := idl, len := len,
                cnt := BitVec.ofNat 8 d.length, acc8 := a, accw := w, trail := f } } := by
  obtain ⟨rfl, rfl, rfl, rfl, rfl⟩ := hheader
  subst hp he ha hw hf
  rw [h, ← (BitVec.toNat_eq_nat.mp hd.symm).2]

end

/-! ## The statements -/

/-- Settles O37: the narrow result of a raw transaction, and the registers it does not write. -/
theorem rawNarrowTransaction : Obligations.RawNarrowTransaction := by
  intro s idh idl len d hp herr hd
  obtain ⟨r, h, hdone, hheader, ⟨hcnt, hres, -⟩, he, haccw, -, htrail⟩ :=
    runWords_raw (exec_startRN idh idl len s) hp hd
  have ⟨hv, hl, hidh, hidl, hlen⟩ := hheader
  have hsum := hres hl hv
  rw [hidh, hidl, hlen] at hsum
  rw [herr.err_eq_none (ne_fault_of_idle_or_done hp)] at he
  exact runWords_eq_mk h hheader hdone he hcnt hsum (haccw hv) (htrail hl)

/-- Settles O38: the wide result of a raw transaction, and the registers it does not write. -/
theorem rawWideTransaction : Obligations.RawWideTransaction := by
  intro s idh idl len d hp herr hd
  obtain ⟨r, h, hdone, hheader, ⟨hcnt, -, hres, -⟩, he, -, hacc8, htrail⟩ :=
    runWords_raw (exec_startRW idh idl len s) hp hd
  have ⟨hv, hl, hidh, hidl, hlen⟩ := hheader
  have hsum := hres hl hv
  rw [hidh, hidl, hlen] at hsum
  rw [herr.err_eq_none (ne_fault_of_idle_or_done hp)] at he
  obtain ⟨hmod, -⟩ := narrowIsWideModulo256
  exact ⟨r.accw, hsum, (hmod idh idl len d r.accw hsum).symm,
    runWords_eq_mk h hheader hdone he hcnt (hacc8 hv) rfl (htrail hl)⟩

/-- The narrow trailing field is the last byte (40_reference_functions R129). -/
theorem trailOf_narrow_toNat {d : List Byte} {field : Word} (h : trailOf .narrow d = some field) :
    field.toNat = (d.getLast?.map BitVec.toNat).getD 0 := by
  obtain rfl | ⟨xs, x, rfl⟩ := d.eq_nil_or_concat'
  · cases h
  · have hlast : lastBytes 1 (xs ++ [x]) = [x] := by simp [lastBytes]
    have hfield : BitVec.ofNat 32 x.toNat = field := by simpa [trailOf, hlast, bigEndian] using h
    have := x.isLt
    rw [← hfield, BitVec.toNat_ofNat, List.getLast?_concat]
    exact Nat.mod_eq_of_lt (by omega)

/-- Settles O39: the narrow result of a frame, and the registers it does not write. -/
theorem frameNarrowTransaction : Obligations.FrameNarrowTransaction := by
  intro s address d hp herr hT hd
  obtain ⟨r, h, hdone, hheader, ⟨hcnt, -, -, hres, -, hfield⟩, he, haccw, -, -⟩ :=
    runWords_frame (exec_startFN address s) hp hT hd
  have ⟨hv, hl, hidh, hidl, _⟩ := hheader
  have hsum := hres hl hv
  obtain ⟨-, htrail⟩ := hfield hl
  rw [hidh, hidl, unsplit_split] at hsum
  rw [hv] at htrail
  rw [herr.err_eq_none (ne_fault_of_idle_or_done hp)] at he
  exact ⟨r.acc8, r.trail, hsum, htrail, trailOf_narrow_toNat htrail,
    runWords_eq_mk h hheader hdone he hcnt rfl (haccw hv) rfl⟩

/-- Settles O40: the wide result of a frame, and the registers it does not write. -/
theorem frameWideTransaction : Obligations.FrameWideTransaction := by
  intro s address d hp herr hT hd
  obtain ⟨r, h, hdone, hheader, ⟨hcnt, -, -, -, hres, hfield⟩, he, -, hacc8, -⟩ :=
    runWords_frame (exec_startFW address s) hp hT hd
  have ⟨hv, hl, hidh, hidl, _⟩ := hheader
  have hsum := hres hl hv
  obtain ⟨-, htrail⟩ := hfield hl
  rw [hidh, hidl, unsplit_split] at hsum
  rw [hv] at htrail
  rw [herr.err_eq_none (ne_fault_of_idle_or_done hp)] at he
  exact ⟨r.accw, r.trail, hsum, htrail, runWords_eq_mk h hheader hdone he hcnt (hacc8 hv) rfl rfl⟩

/-- Settles O41: below `T` bytes the accumulator still holds the header sum, and the delay line the whole payload. -/
theorem shortFrameFaults : Obligations.ShortFrameFaults := by
  intro s address d hp _
  have hmax := s.cfg.maxLen_bounds
  refine ⟨fun hT => ?_, fun hT => ?_⟩
  · obtain ⟨r, h, hheader, hcnt, ⟨hsum, -⟩, htrail, -, haccw, -⟩ :=
      runWords_frame_short (exec_startFN address s) hp hT (by omega)
    have ⟨hv, _⟩ := hheader
    have hacc8 : r.acc8 = BitVec.ofNat 8 (address.toNat / 256 + address.toNat % 256) :=
      BitVec.eq_of_toNat_eq ((hsum hv).trans (BitVec.toNat_ofNat _ 8).symm)
    exact runWords_eq_mk h hheader rfl rfl hcnt hacc8 (haccw hv) (BitVec.toNat_eq_nat.mp htrail).2
  · obtain ⟨r, h, hheader, hcnt, ⟨-, hsum⟩, htrail, -, -, hacc8, -⟩ :=
      runWords_frame_short (exec_startFW address s) hp hT (by omega)
    have ⟨hv, _⟩ := hheader
    exact runWords_eq_mk h hheader rfl rfl hcnt (hacc8 hv) (BitVec.toNat_eq_nat.mp (hsum hv)).2
      (BitVec.toNat_eq_nat.mp htrail).2

/-- A frame's result on `d` and a raw result on the same header and the summed set of `d` are the same sum, for the length
byte the frame was closed with (40_reference_functions R127, R128). -/
theorem Regs.ResultOf.sum_eq {t u : Regs} {v : Variant} {idh idl len : Byte} {d : List Byte} (ht : t.ResultOf d)
    (hu : u.ResultOf (summedSet v d)) (htheader : t.HasHeader v .frame idh idl len)
    (huheader : u.HasHeader v .raw idh idl len) (hT : v.trimCount ≤ d.length) :
    (v = .narrow → t.acc8 = u.acc8) ∧ (v = .wide → t.accw = u.accw) := by
  obtain ⟨hcnt, -, -, htnarrow, htwide, htlen⟩ := ht
  obtain ⟨-, hunarrow, huwide, -⟩ := hu
  obtain ⟨htv, htl, rfl, rfl, rfl⟩ := htheader
  obtain ⟨huv, hul, huidh, huidl, hulen⟩ := huheader
  obtain ⟨hlen, -⟩ := htlen htl
  rw [← hlen] at hcnt
  refine ⟨?_, ?_⟩ <;> rintro rfl
  · have hsum := (fromFrame_unsplit hcnt hT).symm.trans (htnarrow htl htv)
    rw [hunarrow hul huv, huidh, huidl, hulen]
    exact (Option.some.inj hsum).symm
  · have hsum := (fromFrameWide_unsplit hcnt hT).symm.trans (htwide htl htv)
    have hraw := huwide hul huv
    rw [huidh, huidl, hulen] at hraw
    exact Option.some.inj (hsum.symm.trans hraw)

/-- The two transactions of R209, for either variant. -/
theorem runWords_layers_agree {s : State} {iframe iraw : Instr} {v : Variant} {address : Ident} {d : List Byte}
    (hframe : exec iframe s = .next (s.whenAccepted acceptsStart (State.openFrame v address)))
    (hraw : exec iraw s = .next (s.whenAccepted acceptsStart
      (State.openRaw v (splitHigh address) (splitLow address) (BitVec.ofNat 8 d.length))))
    (hp : s.regs.phase = .idle ∨ s.regs.phase = .done) (hT : v.trimCount ≤ d.length) (hd : d.length ≤ s.cfg.maxLen) :
    ∃ t u, runWords s (transaction iframe d) = .next t ∧ runWords s (transaction iraw (summedSet v d)) = .next u ∧
      ((v = .narrow → t.regs.acc8 = u.regs.acc8) ∧ (v = .wide → t.regs.accw = u.regs.accw)) ∧
      t.regs.idh = u.regs.idh ∧ t.regs.idl = u.regs.idl ∧ t.regs.len = u.regs.len ∧
      t.regs.layer = .frame ∧ u.regs.layer = .raw ∧
      t.regs.cnt.toNat = d.length ∧ u.regs.cnt.toNat = d.length - v.trimCount ∧
      some t.regs.trail = trailOf v d ∧ u.regs.trail = 0 := by
  obtain ⟨r, h, -, hheader, hres, -⟩ := runWords_frame hframe hp hT hd
  obtain ⟨q, h', -, hheader', hres', -, -, -, htrail'⟩ :=
    runWords_raw hraw hp ((summedSet_length_le v d).trans hd)
  have hsum := hres.sum_eq hres' hheader hheader' hT
  obtain ⟨hcnt, -, -, -, -, hfield⟩ := hres
  obtain ⟨hv, hl, hidh, hidl, hlen⟩ := hheader
  obtain ⟨-, hl', hidh', hidl', hlen'⟩ := hheader'
  obtain ⟨-, htrail⟩ := hfield hl
  rw [hv] at htrail
  obtain ⟨hcnt', -⟩ := hres'
  have hlength : (summedSet v d).length = d.length - v.trimCount := List.length_take_of_le (Nat.sub_le ..)
  exact ⟨_, _, h, h', hsum, hidh.trans hidh'.symm, hidl.trans hidl'.symm, hlen.trans hlen'.symm, hl, hl', hcnt.symm,
    hcnt'.symm.trans hlength, htrail.symm, htrail' hl'⟩

/-- Settles O46: both variants of the two transactions. -/
theorem layersAgree : Obligations.LayersAgree := by
  intro s address d hp hd idh idl len
  refine ⟨fun hT => ?_, fun hT => ?_⟩
  · obtain ⟨t, u, h, h', ⟨hsum, -⟩, hrest⟩ :=
      runWords_layers_agree (exec_startFN address s) (exec_startRN idh idl len s) hp hT hd
    exact ⟨t, u, h, h', hsum rfl, hrest⟩
  · obtain ⟨t, u, h, h', ⟨-, hsum⟩, hrest⟩ :=
      runWords_layers_agree (exec_startFW address s) (exec_startRW idh idl len s) hp hT hd
    exact ⟨t, u, h, h', hsum rfl, hrest⟩

end Sys2Proof.Machine
end

section
/-!
SUPPORT. The causes of the fault codes (60_exceptions R221 to R225), tied to what a step does outside `FAULT`.
-/

namespace Sys2Proof.Machine

/-- What a presented word decodes to raises a code: one constructor for each cause of 60_exceptions R225, those of `SEQ`
split by the command. -/
inductive Raises (c : Config) (r : Regs) : Decoded → ErrCode → Prop
  | short (hp : r.phase = .active) (hl : r.layer = .frame) (hc : r.cnt.toNat < r.var.trimCount) :
    Raises c r (.instr .end_) .short
  | long (b : Byte) (hp : r.phase = .active) (hc : r.cnt.toNat = c.maxLen) : Raises c r (.instr (.data b)) .long
  | seqStart {i : Instr} (hi : isStart i = true) (hp : r.phase = .active) : Raises c r (.instr i) .seq
  | seqData (b : Byte) (hp : r.phase = .idle ∨ r.phase = .done) : Raises c r (.instr (.data b)) .seq
  | seqEnd (hp : r.phase = .idle ∨ r.phase = .done) : Raises c r (.instr .end_) .seq
  | illegal (why : IllegalForm) : Raises c r (.illegal why) .illegal

/-- The phase is one that accepts the command `i`, other than `CLR` (41_start_commands R154, 42_data_end_commands R170, R171). -/
abbrev Regs.Accepts (r : Regs) (i : Instr) : Prop :=
  if isStart i = true then r.phase = .idle ∨ r.phase = .done else r.phase = .active

theorem eq_active_of_not_idle_or_done {p : Phase} (hf : p ≠ .fault) (h : ¬ (p = .idle ∨ p = .done)) : p = .active := by
  cases p <;> simp at hf h ⊢

theorem idle_or_done_of_ne_active {p : Phase} (hf : p ≠ .fault) (h : p ≠ .active) : p = .idle ∨ p = .done := by
  cases p <;> simp at hf h ⊢

section
variable {c : Config} {r : Regs} {d : Decoded} {code : ErrCode}

/-! ## The cause of each code -/

theorem raises_short_iff : Raises c r d .short ↔
    d = .instr .end_ ∧ r.phase = .active ∧ r.layer = .frame ∧ r.cnt.toNat < r.var.trimCount := by
  refine ⟨fun h => ?_, ?_⟩
  · cases h with
    | short hp hl hc => exact ⟨rfl, hp, hl, hc⟩
  · rintro ⟨rfl, hp, hl, hc⟩
    exact .short hp hl hc

theorem raises_long_iff : Raises c r d .long ↔
    (∃ b, d = .instr (.data b)) ∧ r.phase = .active ∧ r.cnt.toNat = c.maxLen := by
  refine ⟨fun h => ?_, ?_⟩
  · cases h with
    | long b hp hc => exact ⟨⟨b, rfl⟩, hp, hc⟩
  · rintro ⟨⟨b, rfl⟩, hp, hc⟩
    exact .long b hp hc

theorem raises_seq_iff : Raises c r d .seq ↔
    (∃ i, d = .instr i ∧ isStart i = true) ∧ r.phase = .active ∨
    ((∃ b, d = .instr (.data b)) ∨ d = .instr .end_) ∧ (r.phase = .idle ∨ r.phase = .done) := by
  refine ⟨fun h => ?_, ?_⟩
  · cases h with
    | seqStart hi hp => exact .inl ⟨⟨_, rfl, hi⟩, hp⟩
    | seqData b hp => exact .inr ⟨.inl ⟨b, rfl⟩, hp⟩
    | seqEnd hp => exact .inr ⟨.inr rfl, hp⟩
  · rintro (⟨⟨i, rfl, hi⟩, hp⟩ | ⟨⟨b, rfl⟩ | rfl, hp⟩)
    · exact .seqStart hi hp
    · exact .seqData b hp
    · exact .seqEnd hp

theorem raises_illegal_iff : Raises c r d .illegal ↔ ∃ why, d = .illegal why := by
  refine ⟨fun h => ?_, ?_⟩
  · cases h with
    | illegal why => exact ⟨why, rfl⟩
  · rintro ⟨why, rfl⟩
    exact .illegal why

theorem not_raises_none : ¬ Raises c r d .none := nofun

/-- A command whose phase is not the one that accepts it raises `SEQ`. -/
theorem raises_seq_of_not_accepted {i : Instr} (hf : r.phase ≠ .fault) (hi : i ≠ .clr)
    (h : ¬ r.Accepts i) :
    Raises c r (.instr i) .seq := by
  cases i with
  | startRN | startRW | startFN | startFW => exact .seqStart rfl (eq_active_of_not_idle_or_done hf h)
  | data b => exact .seqData b (idle_or_done_of_ne_active hf h)
  | end_ => exact .seqEnd (idle_or_done_of_ne_active hf h)
  | clr => exact absurd rfl hi

/-- A command that passes the checks of its phase, for `LONG` and for `SHORT`, raises no code. -/
theorem not_raises_of_checks_passed {i : Instr} (hacc : r.Accepts i)
    (hlong : ¬ ((∃ b, i = .data b) ∧ r.cnt.toNat = c.maxLen))
    (hshort : ¬ (i = .end_ ∧ r.layer = .frame ∧ r.cnt.toNat < r.var.trimCount)) : ¬ Raises c r (.instr i) code := by
  intro h
  cases h with
  | short _ hl hc => exact hshort ⟨rfl, hl, hc⟩
  | long b _ hc => exact hlong ⟨⟨b, rfl⟩, hc⟩
  | seqStart hi hp => simp [Regs.Accepts, hi, hp] at hacc
  | seqData | seqEnd =>
    rename_i hp
    obtain hp | hp := hp <;> cases hp.symm.trans hacc

/-- A cell of the phase table reads `FAULT` only where the word raises a code. -/
theorem raises_of_phaseTable_eq_fault (hf : r.phase ≠ .fault) (h : phaseTable r c.maxLen d = .fault) :
    ∃ code, Raises c r d code := by
  cases d with
  | illegal why => exact ⟨_, .illegal why⟩
  | instr i =>
    have hi : i ≠ .clr := by rintro rfl; cases h
    by_cases hacc : r.Accepts i
    · cases i with
      | startRN | startRW | startFN | startFW =>
        rw [phaseTable_start rfl, if_pos (acceptsStart_eq_true.mpr hacc)] at h
        cases h
      | data b =>
        rw [phaseTable_data, if_pos (acceptsTransfer_eq_true.mpr hacc)] at h
        exact ⟨_, .long b hacc (by_contra fun hc => nomatch (if_neg hc).symm.trans h)⟩
      | end_ =>
        rw [phaseTable_end, if_pos (acceptsTransfer_eq_true.mpr hacc)] at h
        have ⟨hl, hc⟩ := by_contra fun hs => nomatch (if_neg hs).symm.trans h
        exact ⟨_, .short hacc hl hc⟩
      | clr => exact absurd rfl hi
    · exact ⟨_, raises_seq_of_not_accepted hf hi hacc⟩

end

/-! ## What a step does with a cause, and without -/

/-- Where the word presented raises a code, the step is the fault entry with that code. -/
theorem Raises.step_eq {s : State} {cw : Word} {code : ErrCode} (h : Raises s.cfg s.regs (decode cw) code)
    (hf : s.regs.phase ≠ .fault) : step (s.presentFirst cw) = .next (s.raise code) := by
  generalize hd : decode cw = d at h
  cases h with
  | short hp hl hc => exact (step_presentFirst_of_instr hd s).trans (exec_end_short hp hl hc)
  | long b hp hc => exact (step_presentFirst_of_instr hd s).trans (exec_data_long b hp hc)
  | seqStart hi hp => exact (step_presentFirst_of_instr hd s).trans (exec_start_active hi hp)
  | seqData | seqEnd =>
    rename_i hp
    exact (step_presentFirst_of_instr hd s).trans (congrArg _ (State.whenAccepted_transfer_seq hp _))
  | illegal why => rw [step_presentFirst_of_illegal hd, State.illegalWord_of_ne hf]

/-- A step presented a word outside `FAULT` enters `FAULT` with exactly the codes the word raises. -/
theorem faulted_iff_raises {s t : State} {cw : Word} (hf : s.regs.phase ≠ .fault)
    (h : step (s.presentFirst cw) = .next t) (code : ErrCode) :
    t.regs.phase = .fault ∧ t.regs.err = code ↔ Raises s.cfg s.regs (decode cw) code := by
  refine ⟨fun ⟨hp, he⟩ => ?_, fun hr => ?_⟩
  · obtain ⟨tablePhase, -⟩ := phaseStepTable
    obtain ⟨u, hu, hphase⟩ := tablePhase s cw
    cases hu.symm.trans h
    obtain ⟨code', hr⟩ := raises_of_phaseTable_eq_fault hf (hphase.symm.trans hp)
    cases (hr.step_eq hf).symm.trans h
    exact he ▸ hr
  · cases (hr.step_eq hf).symm.trans h
    exact ⟨rfl, rfl⟩

/-- The word of `CLR` leaves the reset registers from every phase. -/
theorem step_presentFirst_clr (s : State) : step (s.presentFirst 0x50000000) = .next s.clear :=
  step_presentFirst_of_instr (decode_encode .clr) s

end Sys2Proof.Machine
end

section
/-!
PROOFS. The causes of faults, the order of the checks, and fault entry (60_exceptions R225, R226, R230).
-/

namespace Sys2Proof.Machine

/-- Settles O20: outside `FAULT` the codes a step leaves are those `Raises` lists. -/
theorem faultCauses : Obligations.FaultCauses := by
  refine ⟨⟨rfl, rfl, rfl, rfl, rfl⟩, rfl, fun s t cw hf h => ?_⟩
  have hcause := faulted_iff_raises hf h
  refine ⟨(hcause _).trans raises_short_iff, (hcause _).trans raises_long_iff, (hcause _).trans raises_seq_iff,
    (hcause _).trans raises_illegal_iff, (hcause _).not.mpr not_raises_none, fun hd => ?_⟩
  cases (step_presentFirst_of_instr hd s).symm.trans h
  rfl

/-- Settles O18: each check that fails is a cause, and a word that passes them all has none. -/
theorem priorityOfChecks : Obligations.PriorityOfChecks := by
  refine fun s cw => ⟨fun hp => ?_, fun hf ⟨why, hd⟩ => ?_, fun _ hd => step_presentFirst_of_instr hd s,
    fun i hf hd hi => ?_⟩
  · split
    next h => rw [h]; exact step_presentFirst_clr s
    next h => exact step_presentFirst_fault hp h
  · exact Raises.step_eq (hd ▸ .illegal why) hf
  intro accepted isLong isShort
  have hstep {code : ErrCode} (h : Raises s.cfg s.regs (.instr i) code) :
      step (s.presentFirst cw) = .next (s.raise code) := Raises.step_eq (hd ▸ h) hf
  refine ⟨fun hacc => hstep (raises_seq_of_not_accepted hf hi hacc), ?_, ?_, fun hacc hlong hshort => ?_⟩
  · rintro hacc ⟨⟨b, rfl⟩, hc⟩
    exact hstep (.long b hacc hc)
  · rintro hacc ⟨rfl, hl, hc⟩
    exact hstep (.short hacc hl hc)
  obtain ⟨t, ht, -⟩ := exec_next i s
  have hexec := step_presentFirst_of_instr hd s
  refine ⟨hexec, t, ht, fun hp => ?_⟩
  have hr := (faulted_iff_raises hf (hexec.trans ht) _).mp ⟨hp, rfl⟩
  exact not_raises_of_checks_passed hacc hlong hshort (hd ▸ hr)

/-- The one kind of step that enters `FAULT` writes `PHASE` and `ERR`. -/
theorem RegStep.eq_faulted {c : Config} {r t : Regs} (h : RegStep c r t) (hf : r.phase ≠ .fault)
    (ht : t.phase = .fault) : ∃ code ≠ .none, t = r.faulted code := by
  cases h with
  | faulted _ code hc => exact ⟨code, hc, rfl⟩
  | unchanged => exact absurd ht hf
  | opened _ hopen => cases hopen.phase.symm.trans ht
  | tookByte b => exact absurd ((r.takeByte_phase b).symm.trans ht) hf
  | cleared | closedRaw | closedFrame => cases ht

/-- Settles O21: of all that a step can do to the registers, only fault entry leaves `FAULT`. -/
theorem faultEntryIsPrecise : Obligations.FaultEntryIsPrecise := by
  intro s t hf h ht
  obtain ⟨code, hc, hregs⟩ := (step_regStep h).eq_faulted hf ht
  obtain ⟨u, hu, hcfg, hins⟩ := step_takes_edge s
  cases hu.symm.trans h
  exact ⟨code, hc, by rw [← hregs, ← hins, ← hcfg]⟩

end Sys2Proof.Machine
end

section
/-!
PROOFS. The fault is sticky, and the ways out of it (60_exceptions R227, R228; 70_reset_and_hazards R271).
-/

namespace Sys2Proof.Machine

/-- Settles O22: a word that is not `CLR`'s is another command's, or illegal, and `FAULT` ignores both. -/
theorem faultIsSticky : Obligations.FaultIsSticky := fun _ _ => step_presentFirst_fault

/-- Settles O24: the run is a run of ignored words. -/
theorem faultSwallowsWhatFollows : Obligations.FaultSwallowsWhatFollows := fun _ _ => runWords_fault

/-- What the host drives asks for a reset: `rst`, or the word of `CLR` with `cmd_valid` (60_exceptions R228). -/
abbrev PortIn.AsksReset (p : PortIn) : Prop := p.rst = true ∨ p.cmdValid = true ∧ p.cmd = 0x50000000

section
variable {s : State} {p : PortIn} {rest : List PortIn}

/-- An edge that asks for a reset leaves the reset registers, from every phase. -/
theorem step_of_asksReset (h : s.inputs = p :: rest) (hp : p.AsksReset) : step s = .next (s.clear.withInputs rest) := by
  cases hr : p.rst with
  | true => exact step_of_reset_edge h (PortIn.edge_of_rst hr)
  | false =>
    obtain ⟨hv, hcmd⟩ := hp.resolve_left (by simp [hr])
    rw [step_of_command_edge h (PortIn.edge_of_cmdValid hr hv), hcmd]
    exact step_presentFirst_clr (s.withInputs rest)

/-- In `FAULT`, an edge that asks for no reset only takes itself from the host's list. -/
theorem step_fault_of_not_asksReset (h : s.inputs = p :: rest) (hf : s.regs.phase = .fault) (hp : ¬ p.AsksReset) :
    step s = .next (s.withInputs rest) := by
  obtain ⟨hr, hcmd⟩ := not_or.mp hp
  rw [Bool.not_eq_true] at hr
  cases hv : p.cmdValid with
  | false => exact step_of_quiet_edge h (PortIn.edge_of_not_cmdValid hr hv)
  | true =>
    rw [step_of_command_edge h (PortIn.edge_of_cmdValid hr hv)]
    exact step_presentFirst_fault (s := s.withInputs rest) hf fun hcw => hcmd ⟨hv, hcw⟩

end

/-- Settles O23: an edge asks for a reset or changes no register. -/
theorem onlyClearOrResetLeavesFault : Obligations.OnlyClearOrResetLeavesFault := by
  intro s t hf h
  refine ⟨fun hne => ?_, fun p rest hin hp => ?_⟩
  · cases hin : s.inputs with
    | nil =>
      cases (nothingPresentedNothingChanges s hin).symm.trans h
      exact absurd rfl hne
    | cons p rest =>
      by_cases hp : p.AsksReset
      · cases (step_of_asksReset hin hp).symm.trans h
        exact ⟨rfl, p, rest, rfl, hp⟩
      · cases (step_fault_of_not_asksReset hin hf hp).symm.trans h
        exact absurd rfl hne
  · cases (step_of_asksReset hin hp).symm.trans h
    rfl

end Sys2Proof.Machine
end

section
/-!
PROOFS. What the output ports show after reset, and what a host that follows the protocol reads from them
(70_reset_and_hazards R261, R265, R266).
-/

namespace Sys2Proof.Machine

/-- Settles O35: the ports are a function of the registers, and `rst` writes the reset registers. -/
theorem outputsAfterReset : Obligations.OutputsAfterReset :=
  ⟨by decide, fun s _ rest hin hr => ⟨s.clear.withInputs rest, step_of_asksReset hin (.inl hr), rfl, rfl⟩⟩

section
variable {r : Regs}

/-- In `DONE` the host reads a sum, and `status[5]` tells it which of the two accumulators holds it. -/
theorem Regs.outputs_read_done (hp : r.phase = .done) :
    r.outputs.read = if r.var.code = 0 then .narrow r.acc8 else .wide r.accw := by
  obtain ⟨-, -, hvar, -⟩ := statusLayout r
  simp only [Outputs.read, Regs.outputs, hp, hvar, decide_true, if_true]

/-- In `FAULT` the host reads `ERR` in `status[4:2]`. -/
theorem Regs.outputs_read_fault (hp : r.phase = .fault) : r.outputs.read = .failed r.err.code := by
  obtain ⟨-, herr, -⟩ := statusLayout r
  simpa [Outputs.read, Regs.outputs, hp] using herr

/-- While neither `done` nor `fault` is up, the host reads nothing from the result ports. -/
theorem Regs.outputs_read_unfinished (hd : r.phase ≠ .done) (hf : r.phase ≠ .fault) :
    r.outputs.read = .unfinished := by
  simp [Outputs.read, Regs.outputs, hd, hf]

end

/-- Settles O36: the phase says whether there is a sum to read, the variant where it stands. -/
theorem hostReadsResultOnlyWhenDone : Obligations.HostReadsResultOnlyWhenDone := by
  intro r
  refine ⟨fun hp hv => ?narrow, fun hp hv => ?wide, Regs.outputs_read_fault, fun hp => ?unfinished⟩
  case narrow => rw [Regs.outputs_read_done hp, hv]; rfl
  case wide => rw [Regs.outputs_read_done hp, hv]; rfl
  case unfinished => obtain hp | hp := hp <;> exact Regs.outputs_read_unfinished (by simp [hp]) (by simp [hp])

end Sys2Proof.Machine
end

section
/-!
PROOFS. The words of the decoding table (95_test_vectors section 2.1): a legal word is the word of its command, and an
illegal one has one of the forms (a) to (e) of 30_encoding R98.
-/

namespace Sys2Proof

/-- Settles O6: a legal word is its command's `encode`, and an illegal one has a reserved bit set or an unused `op`. -/
theorem decodesWordsOfTheVectors : Obligations.DecodesWordsOfTheVectors := by
  refine ⟨decode_encode (.startRN 0x02 0xE4 0x05), decode_encode (.startRW 0xFF 0xFF 0xFF),
    decode_encode (.startFN 0x02E4), decode_encode (.startFW 0xFFFF), decode_encode (.data 0xFF),
    decode_encode .end_, decode_encode .clr, IllegalBits.decode_illegal ?startBit25,
    IllegalBits.decode_illegal ?frameBit16, IllegalBits.decode_illegal ?dataBit8,
    IllegalBits.decode_illegal ?endBit0, IllegalBits.decode_illegal ?opSix⟩
  case startBit25 => exact .inr (.inl (by decide))
  case frameBit16 => exact .inr (.inr (.inl (by decide)))
  case dataBit8 => exact .inr (.inr (.inr (.inl (by decide))))
  case endBit0 => exact .inr (.inr (.inr (.inr (by decide))))
  case opSix => exact .inl (by decide)

end Sys2Proof
end
